-- ==== Sys2Proof/Word.lean ====
section
/-! DEFINITION. The bit-vector types of the unit: bytes of `MEM`, command and response frames, 64-bit registers.
Everything else the spec computes with is a natural number (R12, R13). -/

namespace Sys2Proof

/-- One byte of `MEM` (R40). -/
abbrev Byte := BitVec 8

/-- A 64-bit register or response field: value width `VW`, position width `POSW` (`00_scope.md` section 4, R28, R64). -/
abbrev Word64 := BitVec 64

/-- The command frame `CMD`, 392 bits, bit 0 least significant (R60, R61). -/
abbrev Frame := BitVec 392

/-- The response frame `RSP`, 136 bits (R60, R64). -/
abbrev RspFrame := BitVec 136

end Sys2Proof
end

