-- ==== Sys2Proof/Config.lean ====
section
/-! DEFINITION. The parameters of `00_scope.md` section 4 (R12), the two values the model names where the spec leaves
one open, and the free bytes of a reset taken mid-command. -/

namespace Sys2Proof.Config

/-- `MAXLEN`: the largest length of a single-field read or write (R130, R150, R191). -/
def maxLen : Nat := 64

/-- `MAXN`: the largest byte count of a fixed-width byte access (R90 to R93, R100). -/
def maxN : Nat := 8

/-- `CHUNK`: the bits a copy moves per step (R171). -/
def chunkBits : Nat := 64

/-- `AW`: the width of the `base` and `nbytes` fields (R61). -/
def addrWidth : Nat := 32

/-- `POSW`: the width of the position and length fields (R61). -/
def posWidth : Nat := 64

/-- `VW`: the width of a value (R61, R64). -/
def valueWidth : Nat := 64

/-- `OPW`: the width of the opcode field (R61). -/
def opWidth : Nat := 8

/-- The largest `MEM_BYTES` the spec allows (`00_scope.md` section 4, D4). -/
def maxMemBytes : Nat := 2 ^ 31

/-- DESIGN CHOICE (unsafe, log entry 1): the `MEM_BYTES` that `State.reset` has. The spec leaves it a parameter
(R12, D4), so it is a field of State, and no statement rests on this value. -/
def resetMemBytes : Nat := 2 ^ 31

/-- DESIGN CHOICE (unsafe for claims about `State.reset` alone, log entry 2): the byte an unlisted address of a
memory list reads as. Every content of `MEM` has exactly one canonical list, so a claim over all states loses nothing. -/
def unlistedByte : Byte := 0

/-- The free bytes of R222: what a byte of an abandoned command's write footprint holds (U5, "any bytes (a draw)").
No body: nothing constrains it. It is applied to the counter `State.draws` (log entry 5). -/
opaque freeByte : Nat → Byte

end Sys2Proof.Config
end

