-- ==== Sys2Proof/Syntax.lean ====
section
/-! DEFINITION. The command set `BFX-1` (R66): one constructor per row of `spec/opcode_table.json`, carrying exactly
the fields R62 says the command uses, in the operand order of R71. Operands are natural numbers, as R12, R13 and R63 use them;
that each fits its field of the frame is checked in WellFormed. -/

namespace Sys2Proof

/-- A buffer descriptor `(base, nbytes)`: the bytes `MEM[base] … MEM[base+nbytes-1]` (R41). -/
structure Buffer where
  base : Nat
  nbytes : Nat
  deriving DecidableEq, Repr

/-- The 13 commands of R66. `a` is buffer A, `b` buffer B (a copy's source, R42). -/
inductive Instr where
  /-- `RDBITS [a_base:a_nbytes], a_pos, len` (R134). -/
  | rdbits (a : Buffer) (aPos len : Nat)
  /-- `RDBITS_INC [a_base:a_nbytes], a_pos, len` (R135). -/
  | rdbitsInc (a : Buffer) (aPos len : Nat)
  /-- `WRBITS [a_base:a_nbytes], a_pos, len, value` (R154). -/
  | wrbits (a : Buffer) (aPos len value : Nat)
  /-- `WRBITS_INC [a_base:a_nbytes], a_pos, len, value` (R155). -/
  | wrbitsInc (a : Buffer) (aPos len value : Nat)
  /-- `WRFLAG [a_base:a_nbytes], a_pos, value` (R156). -/
  | wrflag (a : Buffer) (aPos value : Nat)
  /-- `CPBITS [a_base:a_nbytes], a_pos, len, [b_base:b_nbytes], b_pos` (R172). -/
  | cpbits (a : Buffer) (aPos len : Nat) (b : Buffer) (bPos : Nat)
  /-- `CPBITS_INC [a_base:a_nbytes], a_pos, len, [b_base:b_nbytes], b_pos` (R173). -/
  | cpbitsInc (a : Buffer) (aPos len : Nat) (b : Buffer) (bPos : Nat)
  /-- `RDBYTES_BE [a_base:a_nbytes], a_pos, len` (R94). -/
  | rdbytesBe (a : Buffer) (aPos len : Nat)
  /-- `RDBYTES_LE [a_base:a_nbytes], a_pos, len` (R95). -/
  | rdbytesLe (a : Buffer) (aPos len : Nat)
  /-- `WRBYTES_BE [a_base:a_nbytes], a_pos, len, value` (R96). -/
  | wrbytesBe (a : Buffer) (aPos len value : Nat)
  /-- `WRBYTES_LE [a_base:a_nbytes], a_pos, len, value` (R97). -/
  | wrbytesLe (a : Buffer) (aPos len value : Nat)
  /-- `CPBYTES [a_base:a_nbytes], a_pos, [b_base:b_nbytes], b_pos, len` (R98). -/
  | cpbytes (a : Buffer) (aPos : Nat) (b : Buffer) (bPos len : Nat)
  /-- `ADVANCE a_pos, len` (R99). -/
  | advance (aPos len : Nat)
  deriving DecidableEq, Repr

end Sys2Proof
end

