-- ==== Sys2Proof/WellFormed.lean ====
section
/-! DEFINITION. A command is well formed when each operand fits its field of the command frame (R61). Nothing else is
asked: `len = 0`, an invalid descriptor and a position outside its buffer are all spellable (R63) and are answered by
an error response, not ruled out here. -/

namespace Sys2Proof

/-- Both halves of a descriptor fit their 32-bit fields (R41, R61). -/
def Buffer.wf (b : Buffer) : Bool :=
  decide (b.base < 2 ^ Config.addrWidth) && decide (b.nbytes < 2 ^ Config.addrWidth)

/-- A position or a length fits its 64-bit field (R61). -/
def posWf (n : Nat) : Bool := decide (n < 2 ^ Config.posWidth)

/-- The data operand fits its 64-bit field (R61). -/
def valueWf (v : Nat) : Bool := decide (v < 2 ^ Config.valueWidth)

/-- Every operand of the command fits its field of the frame (R61, R62). -/
def Instr.wf : Instr → Bool
  | .rdbits a aPos len => a.wf && posWf aPos && posWf len
  | .rdbitsInc a aPos len => a.wf && posWf aPos && posWf len
  | .wrbits a aPos len value => a.wf && posWf aPos && posWf len && valueWf value
  | .wrbitsInc a aPos len value => a.wf && posWf aPos && posWf len && valueWf value
  | .wrflag a aPos value => a.wf && posWf aPos && valueWf value
  | .cpbits a aPos len b bPos => a.wf && posWf aPos && posWf len && b.wf && posWf bPos
  | .cpbitsInc a aPos len b bPos => a.wf && posWf aPos && posWf len && b.wf && posWf bPos
  | .rdbytesBe a aPos len => a.wf && posWf aPos && posWf len
  | .rdbytesLe a aPos len => a.wf && posWf aPos && posWf len
  | .wrbytesBe a aPos len value => a.wf && posWf aPos && posWf len && valueWf value
  | .wrbytesLe a aPos len value => a.wf && posWf aPos && posWf len && valueWf value
  | .cpbytes a aPos b bPos len => a.wf && posWf aPos && b.wf && posWf bPos && posWf len
  | .advance aPos len => posWf aPos && posWf len

/-- The predicate the statements use. -/
abbrev Instr.WellFormed (i : Instr) : Prop := i.wf = true

end Sys2Proof
end

