-- ==== Sys2Proof/Decode.lean ====
section
/-! DEFINITION. The command frame (R61), the decoder (total on all `2^392` frames, R67) and the encoder (the canonical
encoding of R62, ignored fields zero). -/

namespace Sys2Proof

/-- The fields of a command frame, each the natural number it spells (R61, R63). -/
structure Fields where
  op : Nat
  aBase : Nat
  aNbytes : Nat
  aPos : Nat
  bBase : Nat
  bNbytes : Nat
  bPos : Nat
  len : Nat
  value : Nat
  deriving DecidableEq, Repr

/-- `v[hi:lo] = (v >> lo) % 2^(hi-lo+1)` (R14). -/
def bitSlice (v hi lo : Nat) : Nat := (v >>> lo) % 2 ^ (hi - lo + 1)

/-- The fields at their places in the frame (the table of R61). -/
def Frame.fields (f : Frame) : Fields where
  op := bitSlice f.toNat 7 0
  aBase := bitSlice f.toNat 39 8
  aNbytes := bitSlice f.toNat 71 40
  aPos := bitSlice f.toNat 135 72
  bBase := bitSlice f.toNat 167 136
  bNbytes := bitSlice f.toNat 199 168
  bPos := bitSlice f.toNat 263 200
  len := bitSlice f.toNat 327 264
  value := bitSlice f.toNat 391 328

/-- Buffer A of a frame (R41, R62). -/
def Fields.bufA (x : Fields) : Buffer := ⟨x.aBase, x.aNbytes⟩

/-- Buffer B of a frame (R41, R62). -/
def Fields.bufB (x : Fields) : Buffer := ⟨x.bBase, x.bNbytes⟩

/-- Why a frame decodes to no command. -/
inductive DecodeReject where
  /-- `op` is `0x00` or `0x0E … 0xFF` (R67, R194). -/
  | illegalOp (op : Nat)
  deriving DecidableEq, Repr

/-- The opcode map of R66 with the fields of R62: the command that the fields spell. -/
def decodeFields (x : Fields) : Except DecodeReject Instr :=
  match x.op with
  | 0x01 => .ok (.rdbits x.bufA x.aPos x.len)
  | 0x02 => .ok (.rdbitsInc x.bufA x.aPos x.len)
  | 0x03 => .ok (.wrbits x.bufA x.aPos x.len x.value)
  | 0x04 => .ok (.wrbitsInc x.bufA x.aPos x.len x.value)
  | 0x05 => .ok (.wrflag x.bufA x.aPos x.value)
  | 0x06 => .ok (.cpbits x.bufA x.aPos x.len x.bufB x.bPos)
  | 0x07 => .ok (.cpbitsInc x.bufA x.aPos x.len x.bufB x.bPos)
  | 0x08 => .ok (.rdbytesBe x.bufA x.aPos x.len)
  | 0x09 => .ok (.rdbytesLe x.bufA x.aPos x.len)
  | 0x0A => .ok (.wrbytesBe x.bufA x.aPos x.len x.value)
  | 0x0B => .ok (.wrbytesLe x.bufA x.aPos x.len x.value)
  | 0x0C => .ok (.cpbytes x.bufA x.aPos x.bufB x.bPos x.len)
  | 0x0D => .ok (.advance x.aPos x.len)
  | op => .error (.illegalOp op)

/-- The decoder: every frame is one command of R66 or illegal (R67). The opcode is the field `CMD[7:0]`, compared whole. -/
def decode (f : Frame) : Except DecodeReject Instr := decodeFields f.fields

/-- The opcode number of a command (R66). -/
def Instr.opcode : Instr → Nat
  | .rdbits _ _ _ => 0x01
  | .rdbitsInc _ _ _ => 0x02
  | .wrbits _ _ _ _ => 0x03
  | .wrbitsInc _ _ _ _ => 0x04
  | .wrflag _ _ _ => 0x05
  | .cpbits _ _ _ _ _ => 0x06
  | .cpbitsInc _ _ _ _ _ => 0x07
  | .rdbytesBe _ _ _ => 0x08
  | .rdbytesLe _ _ _ => 0x09
  | .wrbytesBe _ _ _ _ => 0x0A
  | .wrbytesLe _ _ _ _ => 0x0B
  | .cpbytes _ _ _ _ _ => 0x0C
  | .advance _ _ => 0x0D

/-- The fields of a command's canonical encoding: what R62 does not list for it is zero. -/
def Instr.toFields (i : Instr) : Fields :=
  match i with
  | .rdbits a aPos len => ⟨i.opcode, a.base, a.nbytes, aPos, 0, 0, 0, len, 0⟩
  | .rdbitsInc a aPos len => ⟨i.opcode, a.base, a.nbytes, aPos, 0, 0, 0, len, 0⟩
  | .wrbits a aPos len value => ⟨i.opcode, a.base, a.nbytes, aPos, 0, 0, 0, len, value⟩
  | .wrbitsInc a aPos len value => ⟨i.opcode, a.base, a.nbytes, aPos, 0, 0, 0, len, value⟩
  | .wrflag a aPos value => ⟨i.opcode, a.base, a.nbytes, aPos, 0, 0, 0, 0, value⟩
  | .cpbits a aPos len b bPos => ⟨i.opcode, a.base, a.nbytes, aPos, b.base, b.nbytes, bPos, len, 0⟩
  | .cpbitsInc a aPos len b bPos => ⟨i.opcode, a.base, a.nbytes, aPos, b.base, b.nbytes, bPos, len, 0⟩
  | .rdbytesBe a aPos len => ⟨i.opcode, a.base, a.nbytes, aPos, 0, 0, 0, len, 0⟩
  | .rdbytesLe a aPos len => ⟨i.opcode, a.base, a.nbytes, aPos, 0, 0, 0, len, 0⟩
  | .wrbytesBe a aPos len value => ⟨i.opcode, a.base, a.nbytes, aPos, 0, 0, 0, len, value⟩
  | .wrbytesLe a aPos len value => ⟨i.opcode, a.base, a.nbytes, aPos, 0, 0, 0, len, value⟩
  | .cpbytes a aPos b bPos len => ⟨i.opcode, a.base, a.nbytes, aPos, b.base, b.nbytes, bPos, len, 0⟩
  | .advance aPos len => ⟨i.opcode, 0, 0, aPos, 0, 0, 0, len, 0⟩

/-- The frame with given fields at the places of R61. -/
def Fields.frame (x : Fields) : Frame :=
  BitVec.ofNat 392
    (x.op + x.aBase <<< 8 + x.aNbytes <<< 40 + x.aPos <<< 72 + x.bBase <<< 136 + x.bNbytes <<< 168
      + x.bPos <<< 200 + x.len <<< 264 + x.value <<< 328)

/-- The canonical encoding of a command (R62, R71). -/
def encode (i : Instr) : Frame := i.toFields.frame

/-- The frame whose low `nbits` bits are those of `w` and whose other bits are zero: an opcode-table word with operand
fields of zeros. The frame is parallel on the port, so there is no byte order (R74). -/
def frameOfWord (nbits w : Nat) : Frame := BitVec.ofNat 392 (w % 2 ^ nbits)

/-- The command the decoder reads from a word numbered as `spec/opcode_table.json` numbers it. -/
def decodeTableWord (nbits w : Nat) : Option Instr :=
  match decode (frameOfWord nbits w) with
  | .ok i => some i
  | .error _ => none

/-- The bits of a frame that its command uses: the opcode and the fields R62 lists for it. -/
def usedMask (op : Nat) : Frame :=
  let m (hi lo : Nat) : Nat := (2 ^ (hi - lo + 1) - 1) <<< lo
  let bufA := m 39 8 + m 71 40
  let bufB := m 167 136 + m 199 168
  let aPos := m 135 72
  let bPos := m 263 200
  let len := m 327 264
  let value := m 391 328
  BitVec.ofNat 392 <| m 7 0 +
    match op with
    | 0x01 | 0x02 | 0x08 | 0x09 => bufA + aPos + len
    | 0x03 | 0x04 | 0x0A | 0x0B => bufA + aPos + len + value
    | 0x05 => bufA + aPos + value
    | 0x06 | 0x07 | 0x0C => bufA + aPos + bufB + bPos + len
    | 0x0D => aPos + len
    | _ => 0

end Sys2Proof
end

