-- ==== Sys2Proof/Machine/State.lean ====
section
/-! DEFINITION. The state of the system: `MEM` and its size, what the host does next, and the unit's in-flight
registers (R27, R28, R70). Plain data. -/

namespace Sys2Proof.Machine

/-- The four values of `status` (R190). -/
inductive Status where
  | ok
  | invalidLength
  | outOfBounds
  | illegalOp
  deriving DecidableEq, Repr

/-- The three error conditions of R190: the unit's exceptions. -/
inductive Error where
  /-- The `len` field is outside the range the command accepts (R191). -/
  | invalidLength
  /-- A descriptor is invalid or the footprint leaves its buffer, or an advanced position does not fit (R192, R193). -/
  | outOfBounds
  /-- `op` is none of the 13 opcodes (R194). -/
  | illegalOp
  deriving DecidableEq, Repr

/-- The fields of the response frame `RSP` (R64). -/
structure Response where
  status : Status
  value : Word64
  nextPos : Word64
  deriving DecidableEq, Repr

/-- What the outside of the unit does, one event each (`70_reset_and_hazards.md` section 4, R70). -/
inductive HostEvent where
  /-- `cmd_valid = 1` with this frame on `cmd` (R60, R68). -/
  | command (f : Frame)
  /-- The host writes one byte of `MEM` between commands (R229). -/
  | write (addr : Nat) (byte : Byte)
  /-- `rst = 1` at a rising edge (R221, R222). -/
  | reset
  deriving DecidableEq, Repr

/-- `MEM` as a list of (address, byte) pairs, canonical form `Memory.wf` (R27, R40). -/
abbrev Memory := List Host.Cell

structure State where
  /-- `MEM_BYTES`, a parameter of the machine (R12, R27, R40, D4). No step changes it. -/
  memBytes : Nat
  /-- `MEM`; addresses `0 … memBytes - 1` exist (R27, R40). -/
  mem : Memory
  /-- What the host does from here on, in order (R23, R70, R229). -/
  host : List HostEvent
  /-- `busy`: a command is in flight; `cmd_ready` is its complement (R28, R29, R68). -/
  busy : Bool
  /-- The latched command frame (R28). -/
  latched : Frame
  /-- Copy loop variable `rem`: bits still to copy (R28, R171). -/
  rem : Word64
  /-- Copy loop variable `src_cur` (R28, R171). -/
  srcCur : Word64
  /-- Copy loop variable `dst_cur` (R28, R171). -/
  dstCur : Word64
  /-- The copy's chunk register (R28, R171). -/
  chunk : Word64
  /-- `rsp_valid`: a response is presented (R29, R68, R70). -/
  rspValid : Bool
  /-- The response frame on `rsp`, held until the host takes it (R28, R64, R68). -/
  rsp : Response
  /-- The model's own: how many free bytes (`Config.freeByte`) earlier resets have drawn (R222, log entry 5). -/
  draws : Nat
  deriving DecidableEq, Repr

/-- Why the machine stops. -/
inductive Fault where
  /-- Raised by a host write event that names an address at or above `MEM_BYTES`, a byte that does not exist (R40).
  No command raises it. Safe: the model stops where the spec gives no byte to write. -/
  | hostWriteOutsideMemory
  deriving DecidableEq, Repr

/-- Why a command has no meaning in the model. -/
inductive Refusal where
  /-- Raised by an arm of `exec` whose command has no meaning yet. Safe. -/
  | notModelled (mnemonic : String)
  /-- Raised by `CPBITS`, `CPBITS_INC`, `CPBYTES` when the checks pass and the byte span read and the byte span
  written share a byte: undefined, and "A model refuses such a command" (R177, R98, U3). Safe: the model stops where
  the unit goes on with an undefined memory. -/
  | overlappingCopy
  deriving DecidableEq, Repr

/-- The unit idle over a launch memory of `memBytes` bytes: R29's idle state, R30's launch parameter. The registers
R29 leaves unspecified hold zero (DESIGN CHOICE, log entry 3). -/
def State.launch (memBytes : Nat) (image : Memory) : State where
  memBytes := memBytes
  mem := image
  host := []
  busy := false
  latched := 0
  rem := 0
  srcCur := 0
  dstCur := 0
  chunk := 0
  rspValid := false
  rsp := ⟨.ok, 0, 0⟩
  draws := 0

/-- The machine right after reset with nothing placed in memory (R29, R30; log entries 1, 2, 3, 6). -/
def State.reset : State := State.launch Config.resetMemBytes []

end Sys2Proof.Machine
end

