-- ==== Sys2Proof/Machine/Operands.lean ====
section
/-! DEFINITION. The bit-address algebra of `41_bit_address_algebra.md` (R110 to R115), `mask` (R17), and the byte
spans a command's operands fix (R43). -/

namespace Sys2Proof.Machine

/-- `mask(len) = 2^len - 1` (R17): a number, never a shift by the full width. -/
def mask (len : Nat) : Nat := 2 ^ len - 1

/-- R110: the byte index containing `bit`. -/
def addr (bit : Nat) : Nat := bit >>> 3

/-- R111: the 0-based offset from the byte's most significant bit. -/
def offset (bit : Nat) : Nat := bit &&& 7

/-- R112: the number of bytes a field touches, written `k` in the rules. -/
def involvedBytes (bit len : Nat) : Nat := 1 + addr (offset bit + len - 1)

/-- R113. -/
def bitsInFirstByte (bit : Nat) : Nat := 8 - offset bit

/-- R114: `last_len` of the 9-byte split. -/
def bitsInLastByte (bit len : Nat) : Nat := 1 + offset (bit + len + 7)

/-- R115: how far the covering big-endian number is shifted to bring the field down to bit 0. -/
def shiftAmount (bit len : Nat) : Nat := 7 - offset (bit + len + 7)

/-- A run of bytes of `MEM`: its absolute first address and its length. -/
structure Span where
  start : Nat
  size : Nat
  deriving DecidableEq, Repr

/-- Address `x` lies in the span. -/
abbrev Span.Mem (p : Span) (x : Nat) : Prop := p.start ≤ x ∧ x < p.start + p.size

/-- Two spans have a byte in common (R177). -/
def Span.overlaps (p q : Span) : Bool :=
  decide (p.start < q.start + q.size) && decide (q.start < p.start + p.size) && decide (0 < p.size) && decide (0 < q.size)

/-- The bytes of the field `(bit, len)`: buffer bytes `addr(bit) … addr(bit+len-1)` (R43, R51). -/
def bitSpan (a : Buffer) (bit len : Nat) : Span := ⟨a.base + addr bit, involvedBytes bit len⟩

/-- Buffer bytes `off … off+n-1` (R43, R51). -/
def byteSpan (a : Buffer) (off n : Nat) : Span := ⟨a.base + off, n⟩

/-- The bytes a command writes when it succeeds; empty for a command that writes none (the table of R43). -/
def writeSpan : Instr → Span
  | .rdbits _ _ _ => ⟨0, 0⟩
  | .rdbitsInc _ _ _ => ⟨0, 0⟩
  | .wrbits a aPos len _ => bitSpan a aPos len
  | .wrbitsInc a aPos len _ => bitSpan a aPos len
  | .wrflag a aPos _ => bitSpan a aPos 1
  | .cpbits a aPos len _ _ => bitSpan a aPos len
  | .cpbitsInc a aPos len _ _ => bitSpan a aPos len
  | .rdbytesBe _ _ _ => ⟨0, 0⟩
  | .rdbytesLe _ _ _ => ⟨0, 0⟩
  | .wrbytesBe a aPos len _ => byteSpan a aPos len
  | .wrbytesLe a aPos len _ => byteSpan a aPos len
  | .cpbytes a aPos _ _ len => byteSpan a aPos len
  | .advance _ _ => ⟨0, 0⟩

/-- The bytes a command reads for its data: the read column of R43, with a bit write's partial bytes, and for a copy the
source span alone, which is the span R177 and R98 compare with the span written. -/
def readSpan : Instr → Span
  | .rdbits a aPos len => bitSpan a aPos len
  | .rdbitsInc a aPos len => bitSpan a aPos len
  | .wrbits a aPos len _ => bitSpan a aPos len
  | .wrbitsInc a aPos len _ => bitSpan a aPos len
  | .wrflag a aPos _ => bitSpan a aPos 1
  | .cpbits _ _ len b bPos => bitSpan b bPos len
  | .cpbitsInc _ _ len b bPos => bitSpan b bPos len
  | .rdbytesBe a aPos len => byteSpan a aPos len
  | .rdbytesLe a aPos len => byteSpan a aPos len
  | .wrbytesBe _ _ _ _ => ⟨0, 0⟩
  | .wrbytesLe _ _ _ _ => ⟨0, 0⟩
  | .cpbytes _ _ b bPos len => byteSpan b bPos len
  | .advance _ _ => ⟨0, 0⟩

end Sys2Proof.Machine
end

