-- ==== Sys2Proof/Machine/Flags.lean ====
section
/-! DEFINITION. The unit has no flags (R26); what a command reports of its outcome is `status`, computed here: the
codes of R190 and the check sequences of R100, R136, R174, each answering the first error in the order of R195. -/

namespace Sys2Proof.Machine

/-- The number a status has in `RSP[7:0]` (R190). -/
def Status.code : Status → Nat
  | .ok => 0
  | .invalidLength => 1
  | .outOfBounds => 2
  | .illegalOp => 3

/-- The status an error is reported by (R190). -/
def Error.status : Error → Status
  | .invalidLength => .invalidLength
  | .outOfBounds => .outOfBounds
  | .illegalOp => .illegalOp

/-- The response frame: `status` at `[7:0]`, `value` at `[71:8]`, `next_pos` at `[135:72]` (R64). -/
def Response.frame (r : Response) : RspFrame :=
  BitVec.ofNat 136 (r.status.code + r.value.toNat <<< 8 + r.nextPos.toNat <<< 72)

/-- The status a code stands for; codes 4 to 255 are never produced (R64, R190, U13). -/
def Status.ofCode : Nat → Option Status
  | 0 => some .ok
  | 1 => some .invalidLength
  | 2 => some .outOfBounds
  | 3 => some .illegalOp
  | _ => none

/-- What a host reads from a response frame; a frame with a status the unit never produces is none (R64, U13). -/
def Response.ofFrame (r : RspFrame) : Option Response :=
  (Status.ofCode (bitSlice r.toNat 7 0)).map fun status =>
    ⟨status, BitVec.ofNat 64 (bitSlice r.toNat 71 8), BitVec.ofNat 64 (bitSlice r.toNat 135 72)⟩

/-- The first of a list of checks that fails (R195): each is its condition of failure and its error. -/
def firstError : List (Bool × Error) → Option Error
  | [] => none
  | (true, e) :: _ => some e
  | (false, _) :: rest => firstError rest

/-- `base + nbytes > MEM_BYTES`: the descriptor is invalid (R192). -/
def Buffer.invalid (memBytes : Nat) (b : Buffer) : Bool := decide (memBytes < b.base + b.nbytes)

/-- `check_bytes` of R100. -/
def checkBytes (memBytes : Nat) (b : Buffer) (off n lo hi : Nat) : Option Error :=
  firstError
    [(decide (n < lo) || decide (hi < n), .invalidLength),
     (Buffer.invalid memBytes b, .outOfBounds),
     (decide (b.nbytes < off + n), .outOfBounds)]

/-- `check_bits` of R136. -/
def checkBits (memBytes : Nat) (b : Buffer) (bit len : Nat) : Option Error :=
  firstError
    [(decide (len = 0) || decide (Config.maxLen < len), .invalidLength),
     (Buffer.invalid memBytes b, .outOfBounds),
     (decide (8 * b.nbytes < bit + len), .outOfBounds)]

/-- `check_copy` of R174. -/
def checkCopy (memBytes : Nat) (a : Buffer) (aPos : Nat) (b : Buffer) (bPos len : Nat) : Option Error :=
  firstError
    [(decide (len = 0), .invalidLength),
     (Buffer.invalid memBytes a, .outOfBounds),
     (Buffer.invalid memBytes b, .outOfBounds),
     (decide (8 * a.nbytes < aPos + len), .outOfBounds),
     (decide (8 * b.nbytes < bPos + len), .outOfBounds)]

/-- The two `check_bytes` of R98, destination before source, with `(lo, hi) = (1, 2^64 - 1)` (R100). -/
def checkCopyBytes (memBytes : Nat) (a : Buffer) (aPos : Nat) (b : Buffer) (bPos len : Nat) : Option Error :=
  (checkBytes memBytes a aPos len 1 (2 ^ 64 - 1)).or (checkBytes memBytes b bPos len 1 (2 ^ 64 - 1))

/-- The check of `ADVANCE`: the sum must fit the 64-bit `next_pos` (R99). -/
def checkAdvance (aPos len : Nat) : Option Error :=
  firstError [(decide (2 ^ 64 ≤ aPos + len), .outOfBounds)]

end Sys2Proof.Machine
end

