-- ==== Sys2Proof/Machine/Ops.lean ====
section
/-! DEFINITION. The named operations: one byte of memory, lists of bytes and their byte order (R16, R90 to R93), memory
bits and field values (R15, R18), ending a command with a response or with an error (R16, R196), and what happens on the
ports (R68, R221, R222, R229). -/

namespace Sys2Proof.Machine

/-- `MEM[a]`: the byte at address `a`. -/
def Memory.read : Memory → Nat → Byte
  | [], _ => Config.unlistedByte
  | (x, v) :: rest, a => if a = x then v else Memory.read rest a

/-- `MEM[a] <- b`, keeping the canonical form: rising addresses, nothing listed that reads as unlisted anyway. -/
def Memory.write : Memory → Nat → Byte → Memory
  | [], a, b => if b = Config.unlistedByte then [] else [(a, b)]
  | (x, v) :: rest, a, b =>
    if a < x then
      if b = Config.unlistedByte then (x, v) :: rest else (a, b) :: (x, v) :: rest
    else if a = x then
      if b = Config.unlistedByte then rest else (a, b) :: rest
    else (x, v) :: Memory.write rest a b

/-- The canonical form: addresses strictly rising from at least `lo`, no entry equal to the unlisted byte. -/
def Memory.wfFrom : Nat → Memory → Bool
  | _, [] => true
  | lo, (x, v) :: rest => decide (lo ≤ x) && decide (v ≠ Config.unlistedByte) && Memory.wfFrom (x + 1) rest

/-- The memory list is in its canonical form. -/
def Memory.wf (m : Memory) : Bool := Memory.wfFrom 0 m

/-- Every listed address exists: it is below `MEM_BYTES` (R40). -/
def Memory.within (memBytes : Nat) (m : Memory) : Bool := m.all fun c => decide (c.1 < memBytes)

/-- `MemRead(a, n)`: the bytes `MEM[a] … MEM[a+n-1]`, in no order of significance (R16). -/
def memRead (m : Memory) (a : Nat) : Nat → List Byte
  | 0 => []
  | n + 1 => m.read a :: memRead m (a + 1) n

/-- `MemWrite(a, n, bytes)` (R16). -/
def memWrite (m : Memory) (a : Nat) : List Byte → Memory
  | [] => m
  | b :: rest => memWrite (m.write a b) (a + 1) rest

/-- The first byte most significant (R90). -/
def be : List Byte → Nat
  | [] => 0
  | b :: rest => b.toNat * 256 ^ rest.length + be rest

/-- The last byte most significant (R91). -/
def le : List Byte → Nat
  | [] => 0
  | b :: rest => b.toNat + 256 * le rest

/-- The `n` bytes of `v % 256^n`, most significant first (R92). -/
def beBytes (n v : Nat) : List Byte :=
  (List.range n).map fun i => BitVec.ofNat 8 ((v % 256 ^ n) >>> (8 * (n - 1 - i)))

/-- The `n` bytes of `v % 256^n`, least significant first (R93). -/
def leBytes (n v : Nat) : List Byte :=
  (List.range n).map fun i => BitVec.ofNat 8 ((v % 256 ^ n) >>> (8 * i))

/-- `read_bytes_be(base, off, n)` (R90). -/
def readBytesBe (m : Memory) (base off n : Nat) : Nat := be (memRead m (base + off) n)

/-- `read_bytes_le(base, off, n)` (R91). -/
def readBytesLe (m : Memory) (base off n : Nat) : Nat := le (memRead m (base + off) n)

/-- `write_bytes_be(base, off, n, v)` (R92). -/
def writeBytesBe (m : Memory) (base off n v : Nat) : Memory := memWrite m (base + off) (beBytes n v)

/-- `write_bytes_le(base, off, n, v)` (R93). -/
def writeBytesLe (m : Memory) (base off n v : Nat) : Memory := memWrite m (base + off) (leBytes n v)

/-- `membit(base, b)`: memory bit `b` of the buffer at `base`, MSB-first within its byte (R15). -/
def membit (m : Memory) (base b : Nat) : Nat := ((m.read (base + b / 8)).toNat >>> (7 - b % 8)) &&& 1

/-- `fieldval(base, bit, len)`: the number whose binary digits, most significant first, are memory bits
`bit … bit+len-1` (R18). -/
def fieldval (m : Memory) (base bit : Nat) : Nat → Nat
  | 0 => 0
  | len + 1 => 2 * fieldval m base bit len + membit m base (bit + len)

/-- `respond(status, value, next_pos)`: the command ends with this response on the port (R16, R64). -/
def State.respond (s : State) (status : Status) (value nextPos : Nat) : State :=
  { s with rspValid := true, rsp := ⟨status, BitVec.ofNat 64 value, BitVec.ofNat 64 nextPos⟩ }

/-- `raise E`: the unit's only exception entry. The command ends with `respond(E, 0, echo)` and no memory write; there is
no handler, no saved state and no return from it (R16, R196, R197). -/
def State.raise (s : State) (e : Error) (echo : Nat) : State := s.respond e.status 0 echo

/-- Checks come before the first access (R196): on an error raise it, else go on
from the state as it is. -/
def guarded (check : Option Error) (echo : Nat) (s : State) (go : State → Host.Outcome State Fault Refusal) :
    Host.Outcome State Fault Refusal :=
  match check with
  | some e => .next (s.raise e echo)
  | none => go s

/-- `cmd_ready` (R28, R68). -/
def State.cmdReady (s : State) : Bool := !s.busy

/-- A command is accepted: the frame is latched and the unit is busy (R28, R68). -/
def State.accept (s : State) (f : Frame) : State := { s with busy := true, latched := f }

/-- The host accepts the response and the unit is idle again (R68, R197, R226). -/
def State.acceptResponse (s : State) : State := { s with busy := false, rspValid := false }

/-- `n` bytes from `a` become free values, one draw each (R222, U5). -/
def State.drawBytes : State → Nat → Nat → State
  | s, _, 0 => s
  | s, a, n + 1 =>
    State.drawBytes { s with mem := s.mem.write a (Config.freeByte s.draws), draws := s.draws + 1 } (a + 1) n

/-- The bytes a reset leaves unspecified: the write footprint of the command in flight. A command that ended in an error
writes nothing (R196), so none for it (R222). -/
def State.abandonedSpan (s : State) : Span :=
  if s.busy ∧ s.rsp.status = .ok then
    match decode s.latched with
    | .ok i => writeSpan i
    | .error _ => ⟨0, 0⟩
  else ⟨0, 0⟩

/-- `rst` at a rising edge: to the idle state (R29, R221); a command in flight is abandoned, its write footprint
unspecified and every other byte unchanged (R222). The latched command, the copy loop variables and the chunk register
are not reset (R29). -/
def State.applyReset (s : State) : State :=
  let t := s.drawBytes s.abandonedSpan.start s.abandonedSpan.size
  { t with busy := false, rspValid := false }

/-- The host writes a byte of `MEM` between commands (R229); an address at or above `MEM_BYTES` does not exist (R40). -/
def hostWrite (a : Nat) (b : Byte) (s : State) : Host.Outcome State Fault Refusal :=
  if a < s.memBytes then .next { s with mem := s.mem.write a b } else .fault .hostWriteOutsideMemory

end Sys2Proof.Machine
end

