-- ==== Sys2Proof/Machine/Extractor.lean ====
section
/-! DEFINITION. The bit-field read engine and its commands (`42_bitfield_extractor.md`, R131 to R135). -/

namespace Sys2Proof.Machine

/-- `read_fixed(base, bit, len)`: the covering bytes as a big-endian number, shifted and masked (R131). -/
def readFixed (m : Memory) (base bit len : Nat) : Nat :=
  let w := readBytesBe m base (addr bit) (involvedBytes bit len)
  (w >>> shiftAmount bit len) &&& mask len

/-- `read_split9(base, bit, len)` (R133). -/
def readSplit9 (m : Memory) (base bit len : Nat) : Nat :=
  let lastLen := bitsInLastByte bit len
  let leadLen := len - lastLen
  let leading := readFixed m base bit leadLen
  let trailing := readFixed m base (bit + leadLen) lastLen
  (leading <<< lastLen) ||| trailing

/-- `read_bits(base, bit, len)`, the dispatch on the involved-byte count (R132). -/
def readBits (m : Memory) (base bit len : Nat) : Nat :=
  if involvedBytes bit len ≤ 8 then readFixed m base bit len else readSplit9 m base bit len

/-- `RDBITS` (R134). -/
def execRdbits (a : Buffer) (aPos len : Nat) (s : State) : Host.Outcome State Fault Refusal :=
  guarded (checkBits s.memBytes a aPos len) 0 s fun s => .next (s.respond .ok (readBits s.mem a.base aPos len) 0)

/-- `RDBITS_INC` (R135): on an error the cursor is echoed (R196). -/
def execRdbitsInc (a : Buffer) (aPos len : Nat) (s : State) : Host.Outcome State Fault Refusal :=
  guarded (checkBits s.memBytes a aPos len) aPos s fun s =>
    .next (s.respond .ok (readBits s.mem a.base aPos len) (aPos + len))

end Sys2Proof.Machine
end

