-- ==== Sys2Proof/Machine/Inserter.lean ====
section
/-! DEFINITION. The bit-field write engine and its commands (`43_bitfield_inserter.md`, R151 to R156). -/

namespace Sys2Proof.Machine

/-- One turn of `write_fixed`'s loop: byte `j` of the `k`-byte container is overwritten where the field covers it whole and
read, modified and written where it covers a part (R151). `fm` and `fv` are the shifted mask and the shifted value. -/
def writeFixedByte (k fm fv a0 : Nat) (m : Memory) (j : Nat) : Memory :=
  let mj := (fm >>> (8 * (k - 1 - j))) &&& 0xFF
  let vj := (fv >>> (8 * (k - 1 - j))) &&& 0xFF
  let a := a0 + j
  if mj = 0xFF then m.write a (BitVec.ofNat 8 vj)
  else m.write a (BitVec.ofNat 8 (((m.read a).toNat &&& (0xFF - mj)) ||| vj))

/-- `write_fixed(base, bit, len, value)`: bytes `j = 0 … k-1` in order (R151). -/
def writeFixed (m : Memory) (base bit len value : Nat) : Memory :=
  let k := involvedBytes bit len
  let s := shiftAmount bit len
  let fm := mask len <<< s
  let fv := (value &&& mask len) <<< s
  (List.range k).foldl (writeFixedByte k fm fv (base + addr bit)) m

/-- `write_split9(base, bit, len, value)`: the leading part first (R153). -/
def writeSplit9 (m : Memory) (base bit len value : Nat) : Memory :=
  let lastLen := bitsInLastByte bit len
  let leadLen := len - lastLen
  let x := value &&& mask len
  writeFixed (writeFixed m base bit leadLen (x >>> lastLen)) base (bit + leadLen) lastLen (x &&& mask lastLen)

/-- `write_bits(base, bit, len, value)`, the dispatch on the involved-byte count (R152). -/
def writeBits (m : Memory) (base bit len value : Nat) : Memory :=
  if involvedBytes bit len ≤ 8 then writeFixed m base bit len value else writeSplit9 m base bit len value

/-- `WRBITS` (R154). -/
def execWrbits (a : Buffer) (aPos len value : Nat) (s : State) : Host.Outcome State Fault Refusal :=
  guarded (checkBits s.memBytes a aPos len) 0 s fun s =>
    .next ({ s with mem := writeBits s.mem a.base aPos len value }.respond .ok 0 0)

/-- `WRBITS_INC` (R155): on an error the cursor is echoed (R196). -/
def execWrbitsInc (a : Buffer) (aPos len value : Nat) (s : State) : Host.Outcome State Fault Refusal :=
  guarded (checkBits s.memBytes a aPos len) aPos s fun s =>
    .next ({ s with mem := writeBits s.mem a.base aPos len value }.respond .ok 0 (aPos + len))

/-- `WRFLAG` (R156): the length is the constant 1, the flag is bit 0 of `value`. -/
def execWrflag (a : Buffer) (aPos value : Nat) (s : State) : Host.Outcome State Fault Refusal :=
  guarded (checkBits s.memBytes a aPos 1) 0 s fun s =>
    .next ({ s with mem := writeBits s.mem a.base aPos 1 (value &&& 1) }.respond .ok 0 0)

end Sys2Proof.Machine
end

