-- ==== Sys2Proof/Machine/BitCopy.lean ====
section
/-! DEFINITION. The cross-buffer bit copy and its commands (`44_bit_copy.md`, R171 to R174, R177). The loop runs over the
unit's own registers `rem`, `src_cur`, `dst_cur` and the chunk register (R28). -/

namespace Sys2Proof.Machine

/-- `rem = len; dst_cur = a_pos; src_cur = b_pos` (R171). -/
def State.copyStart (s : State) (aPos len bPos : Nat) : State :=
  { s with rem := BitVec.ofNat 64 len, dstCur := BitVec.ofNat 64 aPos, srcCur := BitVec.ofNat 64 bPos }

/-- One chunk of `n` bits: read it into the chunk register, then write it (R171). -/
def State.copyChunk (aBase bBase n : Nat) (s : State) : State :=
  let c := BitVec.ofNat 64 (readBits s.mem bBase s.srcCur.toNat n)
  { s with chunk := c, mem := writeBits s.mem aBase s.dstCur.toNat n c.toNat }

/-- `src_cur += 64; dst_cur += 64; rem -= 64` (R171). In bounds no register wraps (R51). -/
def State.copyAdvance (s : State) : State :=
  { s with srcCur := s.srcCur + 64, dstCur := s.dstCur + 64, rem := s.rem - 64 }

/-- The loop of `copy_bits` (R171): 64-bit chunks while `rem > 64`, then one final chunk. `fuel` bounds the number of
chunks; R175 says how many there are. -/
def State.copyLoop (aBase bBase : Nat) : Nat → State → State
  | 0, s => s
  | fuel + 1, s =>
    if Config.chunkBits < s.rem.toNat then
      State.copyLoop aBase bBase fuel (State.copyChunk aBase bBase Config.chunkBits s).copyAdvance
    else if 0 < s.rem.toNat then State.copyChunk aBase bBase s.rem.toNat s
    else s

/-- `ceil(len / 64)`, the number of chunks (R175). -/
def copyChunks (len : Nat) : Nat := (len + 63) / 64

/-- `copy_bits(a_base, a_pos, len, b_base, b_pos)` (R171). -/
def State.copyBits (s : State) (aBase aPos len bBase bPos : Nat) : State :=
  State.copyLoop aBase bBase (copyChunks len) (s.copyStart aPos len bPos)

/-- `CPBITS` (R172); overlapping byte spans are undefined (R177). -/
def execCpbits (a : Buffer) (aPos len : Nat) (b : Buffer) (bPos : Nat) (s : State) :
    Host.Outcome State Fault Refusal :=
  guarded (checkCopy s.memBytes a aPos b bPos len) 0 s fun s =>
    if (bitSpan a aPos len).overlaps (bitSpan b bPos len) then .refused .overlappingCopy
    else .next ((s.copyBits a.base aPos len b.base bPos).respond .ok 0 0)

/-- `CPBITS_INC` (R173): `next_pos` is the source position; on an error it is `b_pos` (R196). -/
def execCpbitsInc (a : Buffer) (aPos len : Nat) (b : Buffer) (bPos : Nat) (s : State) :
    Host.Outcome State Fault Refusal :=
  guarded (checkCopy s.memBytes a aPos b bPos len) bPos s fun s =>
    if (bitSpan a aPos len).overlaps (bitSpan b bPos len) then .refused .overlappingCopy
    else .next ((s.copyBits a.base aPos len b.base bPos).respond .ok 0 (bPos + len))

end Sys2Proof.Machine
end

