-- ==== Sys2Proof/Machine/ByteAccessor.lean ====
section
/-! DEFINITION. The byte accessor commands of `40_byte_accessor.md` (R94 to R99). -/

namespace Sys2Proof.Machine

/-- `RDBYTES_BE` (R94). -/
def execRdbytesBe (a : Buffer) (aPos len : Nat) (s : State) : Host.Outcome State Fault Refusal :=
  guarded (checkBytes s.memBytes a aPos len 1 Config.maxN) 0 s fun s =>
    .next (s.respond .ok (readBytesBe s.mem a.base aPos len) 0)

/-- `RDBYTES_LE` (R95). -/
def execRdbytesLe (a : Buffer) (aPos len : Nat) (s : State) : Host.Outcome State Fault Refusal :=
  guarded (checkBytes s.memBytes a aPos len 1 Config.maxN) 0 s fun s =>
    .next (s.respond .ok (readBytesLe s.mem a.base aPos len) 0)

/-- `WRBYTES_BE` (R96). -/
def execWrbytesBe (a : Buffer) (aPos len value : Nat) (s : State) : Host.Outcome State Fault Refusal :=
  guarded (checkBytes s.memBytes a aPos len 1 Config.maxN) 0 s fun s =>
    .next ({ s with mem := writeBytesBe s.mem a.base aPos len value }.respond .ok 0 0)

/-- `WRBYTES_LE` (R97). -/
def execWrbytesLe (a : Buffer) (aPos len value : Nat) (s : State) : Host.Outcome State Fault Refusal :=
  guarded (checkBytes s.memBytes a aPos len 1 Config.maxN) 0 s fun s =>
    .next ({ s with mem := writeBytesLe s.mem a.base aPos len value }.respond .ok 0 0)

/-- `CPBYTES` (R98): every byte is read from the memory as it was before the command; overlapping ranges are undefined
(U3). -/
def execCpbytes (a : Buffer) (aPos : Nat) (b : Buffer) (bPos len : Nat) (s : State) :
    Host.Outcome State Fault Refusal :=
  guarded (checkCopyBytes s.memBytes a aPos b bPos len) 0 s fun s =>
    if (byteSpan a aPos len).overlaps (byteSpan b bPos len) then .refused .overlappingCopy
    else .next ({ s with mem := memWrite s.mem (a.base + aPos) (memRead s.mem (b.base + bPos) len) }.respond .ok 0 0)

/-- `ADVANCE` (R99): a pure addition; no buffer is read or checked. On an error `next_pos` is `a_pos` (R196). -/
def execAdvance (aPos len : Nat) (s : State) : Host.Outcome State Fault Refusal :=
  guarded (checkAdvance aPos len) aPos s fun s => .next (s.respond .ok 0 (aPos + len))

end Sys2Proof.Machine
end

