-- ==== Sys2Proof/Machine/Dispatch.lean ====
section
/-! DEFINITION. One arm per command of R66. -/

namespace Sys2Proof.Machine

def exec (i : Instr) (s : State) : Host.Outcome State Fault Refusal :=
  match i with
  | .rdbits a aPos len => Sys2Proof.Machine.execRdbits a aPos len s
  | .rdbitsInc a aPos len => Sys2Proof.Machine.execRdbitsInc a aPos len s
  | .wrbits a aPos len value => Sys2Proof.Machine.execWrbits a aPos len value s
  | .wrbitsInc a aPos len value => Sys2Proof.Machine.execWrbitsInc a aPos len value s
  | .wrflag a aPos value => Sys2Proof.Machine.execWrflag a aPos value s
  | .cpbits a aPos len b bPos => Sys2Proof.Machine.execCpbits a aPos len b bPos s
  | .cpbitsInc a aPos len b bPos => Sys2Proof.Machine.execCpbitsInc a aPos len b bPos s
  | .rdbytesBe a aPos len => Sys2Proof.Machine.execRdbytesBe a aPos len s
  | .rdbytesLe a aPos len => Sys2Proof.Machine.execRdbytesLe a aPos len s
  | .wrbytesBe a aPos len value => Sys2Proof.Machine.execWrbytesBe a aPos len value s
  | .wrbytesLe a aPos len value => Sys2Proof.Machine.execWrbytesLe a aPos len value s
  | .cpbytes a aPos b bPos len => Sys2Proof.Machine.execCpbytes a aPos b bPos len s
  | .advance aPos len => Sys2Proof.Machine.execAdvance aPos len s

end Sys2Proof.Machine
end

