-- ==== Sys2Proof/Machine/Step.lean ====
section
/-! DEFINITION. One step of the system: one event at the ports. A command, from its acceptance to the presentation of its
response, is one atomic step (R21, R226). -/

namespace Sys2Proof.Machine

/-- The accepted frame is decoded and executed, or answered `ILLEGAL_OP` (R67, R194). -/
def runFrame (f : Frame) (s : State) : Host.Outcome State Fault Refusal :=
  match decode f with
  | .ok i => exec i s
  | .error _ => .next (s.raise .illegalOp 0)

/-- One step. A reset is taken at any time (R221, R222). While a command is in flight nothing else the host does is taken:
the response is accepted first (R68, R226, R228). An idle unit with nothing presented does nothing (R202). -/
def step (s : State) : Host.Outcome State Fault Refusal :=
  match s.host with
  | .reset :: rest => .next { s with host := rest }.applyReset
  | [] => if s.busy then .next s.acceptResponse else .next s
  | .command f :: rest =>
    if s.busy then .next s.acceptResponse else runFrame f ({ s with host := rest }.accept f)
  | .write a b :: rest => if s.busy then .next s.acceptResponse else hostWrite a b { s with host := rest }

/-- `s` idle, with the frame of an opcode-table word presented next on the command port: the port is where the unit gets
its commands, never `MEM` (R23, R57, R60). -/
def State.withFetchWord (s : State) (nbits w : Nat) : State :=
  { s with host := .command (frameOfWord nbits w) :: s.host, busy := false, rspValid := false }

end Sys2Proof.Machine
end

