-- ==== Sys2Proof/Safety.lean ====
section
/-! DEFINITION. The terms the statements use: the per-command tables of the spec, written out from R65, R191 to R193,
R195 and R196 apart from the checks the meanings run, and the invariant of the machine. -/

namespace Sys2Proof.Machine

/-- The table of R191: the commands' `INVALID_LENGTH`. -/
def lengthInvalid : Instr → Bool
  | .rdbits _ _ len => len == 0 || decide (64 < len)
  | .rdbitsInc _ _ len => len == 0 || decide (64 < len)
  | .wrbits _ _ len _ => len == 0 || decide (64 < len)
  | .wrbitsInc _ _ len _ => len == 0 || decide (64 < len)
  | .wrflag _ _ _ => false
  | .cpbits _ _ len _ _ => len == 0
  | .cpbitsInc _ _ len _ _ => len == 0
  | .rdbytesBe _ _ len => len == 0 || decide (8 < len)
  | .rdbytesLe _ _ len => len == 0 || decide (8 < len)
  | .wrbytesBe _ _ len _ => len == 0 || decide (8 < len)
  | .wrbytesLe _ _ len _ => len == 0 || decide (8 < len)
  | .cpbytes _ _ _ _ len => len == 0
  | .advance _ _ => false

/-- The descriptors a command uses (R62, R192). -/
def descriptors : Instr → List Buffer
  | .rdbits a _ _ => [a]
  | .rdbitsInc a _ _ => [a]
  | .wrbits a _ _ _ => [a]
  | .wrbitsInc a _ _ _ => [a]
  | .wrflag a _ _ => [a]
  | .cpbits a _ _ b _ => [a, b]
  | .cpbitsInc a _ _ b _ => [a, b]
  | .rdbytesBe a _ _ => [a]
  | .rdbytesLe a _ _ => [a]
  | .wrbytesBe a _ _ _ => [a]
  | .wrbytesLe a _ _ _ => [a]
  | .cpbytes a _ b _ _ => [a, b]
  | .advance _ _ => []

/-- R192: some descriptor of the command is invalid. -/
def descriptorInvalid (memBytes : Nat) (i : Instr) : Bool :=
  (descriptors i).any fun b => decide (memBytes < b.base + b.nbytes)

/-- The table of R193: the footprint leaves its buffer. -/
def footprintOutside : Instr → Bool
  | .rdbits a aPos len => decide (8 * a.nbytes < aPos + len)
  | .rdbitsInc a aPos len => decide (8 * a.nbytes < aPos + len)
  | .wrbits a aPos len _ => decide (8 * a.nbytes < aPos + len)
  | .wrbitsInc a aPos len _ => decide (8 * a.nbytes < aPos + len)
  | .wrflag a aPos _ => decide (8 * a.nbytes < aPos + 1)
  | .cpbits a aPos len b bPos => decide (8 * a.nbytes < aPos + len) || decide (8 * b.nbytes < bPos + len)
  | .cpbitsInc a aPos len b bPos => decide (8 * a.nbytes < aPos + len) || decide (8 * b.nbytes < bPos + len)
  | .rdbytesBe a aPos len => decide (a.nbytes < aPos + len)
  | .rdbytesLe a aPos len => decide (a.nbytes < aPos + len)
  | .wrbytesBe a aPos len _ => decide (a.nbytes < aPos + len)
  | .wrbytesLe a aPos len _ => decide (a.nbytes < aPos + len)
  | .cpbytes a aPos b bPos len => decide (a.nbytes < aPos + len) || decide (b.nbytes < bPos + len)
  | .advance aPos len => decide (2 ^ 64 ≤ aPos + len)

/-- The status of a decoded command, in the order of R195. -/
def expectedStatus (memBytes : Nat) (i : Instr) : Status :=
  if lengthInvalid i then .invalidLength
  else if descriptorInvalid memBytes i then .outOfBounds
  else if footprintOutside i then .outOfBounds
  else .ok

/-- `next_pos` of an error response: the input position of an `_INC` command and of `ADVANCE`, else 0 (R196). -/
def echoPos : Instr → Nat
  | .rdbitsInc _ aPos _ => aPos
  | .wrbitsInc _ aPos _ _ => aPos
  | .cpbitsInc _ _ _ _ bPos => bPos
  | .advance aPos _ => aPos
  | .rdbits _ _ _ => 0
  | .wrbits _ _ _ _ => 0
  | .wrflag _ _ _ => 0
  | .cpbits _ _ _ _ _ => 0
  | .rdbytesBe _ _ _ => 0
  | .rdbytesLe _ _ _ => 0
  | .wrbytesBe _ _ _ _ => 0
  | .wrbytesLe _ _ _ _ => 0
  | .cpbytes _ _ _ _ _ => 0

/-- `next_pos` of an `OK` response (R65). -/
def okNextPos : Instr → Nat
  | .rdbitsInc _ aPos len => aPos + len
  | .wrbitsInc _ aPos len _ => aPos + len
  | .cpbitsInc _ _ len _ bPos => bPos + len
  | .advance aPos len => aPos + len
  | .rdbits _ _ _ => 0
  | .wrbits _ _ _ _ => 0
  | .wrflag _ _ _ => 0
  | .cpbits _ _ _ _ _ => 0
  | .rdbytesBe _ _ _ => 0
  | .rdbytesLe _ _ _ => 0
  | .wrbytesBe _ _ _ _ => 0
  | .wrbytesLe _ _ _ _ => 0
  | .cpbytes _ _ _ _ _ => 0

/-- The command is a copy. -/
def isCopy : Instr → Bool
  | .cpbits _ _ _ _ _ => true
  | .cpbitsInc _ _ _ _ _ => true
  | .cpbytes _ _ _ _ _ => true
  | .rdbits _ _ _ => false
  | .rdbitsInc _ _ _ => false
  | .wrbits _ _ _ _ => false
  | .wrbitsInc _ _ _ _ => false
  | .wrflag _ _ _ => false
  | .rdbytesBe _ _ _ => false
  | .rdbytesLe _ _ _ => false
  | .wrbytesBe _ _ _ _ => false
  | .wrbytesLe _ _ _ _ => false
  | .advance _ _ => false

/-- The command returns a value: the read commands of R64. -/
def isRead : Instr → Bool
  | .rdbits _ _ _ => true
  | .rdbitsInc _ _ _ => true
  | .rdbytesBe _ _ _ => true
  | .rdbytesLe _ _ _ => true
  | .wrbits _ _ _ _ => false
  | .wrbitsInc _ _ _ _ => false
  | .wrflag _ _ _ => false
  | .cpbits _ _ _ _ _ => false
  | .cpbitsInc _ _ _ _ _ => false
  | .wrbytesBe _ _ _ _ => false
  | .wrbytesLe _ _ _ _ => false
  | .cpbytes _ _ _ _ _ => false
  | .advance _ _ => false

/-- The copies R177 and R98 leave undefined: the byte span read and the byte span written share a byte. -/
def copyOverlaps (i : Instr) : Bool := isCopy i && (writeSpan i).overlaps (readSpan i)

/-- The state with a response presented and nothing else changed (R64). -/
def State.withRsp (s : State) (r : Response) : State := { s with rspValid := true, rsp := r }

/-- `m'` is `m` with the field `(bit, len)` of the buffer at `base` set to the low `len` bits of `value`: R157. Its memory
bits are the value's digits, first bit most significant; every other memory bit of the buffer is kept; every byte
outside the span of the field is as before. -/
structure FieldWritten (m m' : Memory) (base bit len value : Nat) : Prop where
  field : ∀ i, i < len → membit m' base (bit + i) = (value >>> (len - 1 - i)) &&& 1
  otherBits : ∀ b, b < bit ∨ bit + len ≤ b → membit m' base b = membit m base b
  otherBytes : ∀ x, ¬(bitSpan ⟨base, 0⟩ bit len).Mem x → m'.read x = m.read x

/-- `m'` is `m` with `len` bits copied from `bPos` of the buffer at `bBase` to `aPos` of the buffer at `aBase`, in order,
and no other bit of memory changed: R170. -/
structure BitsCopied (m m' : Memory) (aBase aPos len bBase bPos : Nat) : Prop where
  copied : ∀ i, i < len → membit m' aBase (aPos + i) = membit m bBase (bPos + i)
  otherBits : ∀ b, b < aPos ∨ aPos + len ≤ b → membit m' aBase b = membit m aBase b
  otherBytes : ∀ x, ¬(bitSpan ⟨aBase, 0⟩ aPos len).Mem x → m'.read x = m.read x

/-- The values of a chain of `RDBITS_INC` commands, each at the `next_pos` the one before it answered (R138). -/
def rdbitsIncChain (a : Buffer) : Nat → List Nat → State → List Word64
  | _, [], _ => []
  | pos, len :: lens, s =>
    match exec (.rdbitsInc a pos len) s with
    | .next t => t.rsp.value :: rdbitsIncChain a t.rsp.nextPos.toNat lens t
    | .fault _ => []
    | .refused _ => []

/-- The values of `RDBITS` commands at the positions `p`, `p + len_1`, `p + len_1 + len_2`, … (R138). -/
def rdbitsChain (a : Buffer) : Nat → List Nat → State → List Word64
  | _, [], _ => []
  | pos, len :: lens, s =>
    match exec (.rdbits a pos len) s with
    | .next t => t.rsp.value :: rdbitsChain a (pos + len) lens t
    | .fault _ => []
    | .refused _ => []

/-- The run so far is a legal one: the memory has a legal size, its list is canonical and lists no byte that does not
exist; a response is presented exactly while a command is in flight; an error response carries no value (R196); and
the bytes a reset would leave unspecified exist. -/
structure State.Inv (s : State) : Prop where
  memBytes_pos : 1 ≤ s.memBytes
  memBytes_le : s.memBytes ≤ Config.maxMemBytes
  mem_wf : s.mem.wf = true
  mem_within : s.mem.within s.memBytes = true
  rspValid_eq : s.rspValid = s.busy
  error_value : s.rsp.status ≠ .ok → s.rsp.value = 0
  abandoned_within : s.abandonedSpan.size = 0 ∨ s.abandonedSpan.start + s.abandonedSpan.size ≤ s.memBytes

end Sys2Proof.Machine
end

