-- ==== Sys2Proof/Certificates/Slice0/Obligations.lean ====
section
/-! DEFINITION. The statements about the unit, from the numbered rules of `spec/`. -/

open Sys2Proof Sys2Proof.Machine

/-! ### Encoding -/

/-- R61, R62, R66: the decoder reads every well-formed command back from its canonical encoding. -/
def Obligations.DecodeEncodeRoundTrip : Prop :=
  ∀ i : Instr, i.WellFormed → decode (encode i) = .ok i

/-- R62: what a frame decodes to is well formed, and its canonical encoding is the frame with every bit its command
ignores set to zero. -/
def Obligations.CanonicalEncodingClearsIgnoredBits : Prop :=
  ∀ (f : Frame) (i : Instr), decode f = .ok i → i.WellFormed ∧ encode i = f &&& usedMask f.fields.op

/-- R62: two frames that agree on the bits their command uses decode alike, whatever the ignored bits are. -/
def Obligations.IgnoredBitsChangeNothing : Prop :=
  ∀ f g : Frame, f &&& usedMask f.fields.op = g &&& usedMask g.fields.op → decode f = decode g

/-- R66, R67: a frame spells a command exactly when `op` is `0x01 … 0x0D`, and that command has this opcode; every other
frame is rejected by its opcode. -/
def Obligations.DecoderRejectsReservedOpcodes : Prop :=
  ∀ f : Frame,
    ((1 ≤ f.fields.op ∧ f.fields.op ≤ 13) → ∃ i, decode f = .ok i ∧ i.opcode = f.fields.op) ∧
    ((f.fields.op = 0 ∨ 14 ≤ f.fields.op) → decode f = .error (.illegalOp f.fields.op))

/-- Frames printed in `95_test_vectors.md` section 8 (P1 #1, P1 #2, P2 #7, P3 #1, P4 #1, P4 #7) and an illegal one (P4 #6). -/
def Obligations.PrintedFramesDecode : Prop :=
  decode 0x0000000000000000000000000000000400000000000000000000000000000000000000000000000000000004000000000A#392
    = .ok (.wrbytesBe ⟨0, 4⟩ 0 4 0) ∧
  decode 0x00000000000000040000000000000004000000000000000000000000000000000000000000000000000000040000000004#392
    = .ok (.wrbitsInc ⟨0, 4⟩ 0 4 4) ∧
  decode 0x000000000000000100000000000000000000000000000000000000000000000000000000000000050000000C0000000005#392
    = .ok (.wrflag ⟨0, 12⟩ 5 1) ∧
  decode 0x0000000000000000000000000000006400000000000000030000001000000000000000000000000D000000100000001007#392
    = .ok (.cpbitsInc ⟨16, 16⟩ 13 100 ⟨0, 16⟩ 3) ∧
  decode 0x00000000A1B2C3D4000000000000000400000000000000000000000000000000000000000000000000000008000000000B#392
    = .ok (.wrbytesLe ⟨0, 8⟩ 0 4 0xA1B2C3D4) ∧
  decode 0x0000000000000000000000000000000100000000000000000000000000000000000000000000000700000000000000000D#392
    = .ok (.advance 7 1) ∧
  decode 0x00000000000000FF000000000000000800000000000000000000000000000000000000000000000000000008000000002A#392
    = .error (.illegalOp 0x2A)

/-- R64, R190: the response frame holds the status code, the value and the next position at the places of R64, and a host
reads the response back from it. -/
def Obligations.ResponseFrameHoldsItsFields : Prop :=
  ∀ r : Response,
    bitSlice r.frame.toNat 7 0 = r.status.code ∧ bitSlice r.frame.toNat 71 8 = r.value.toNat ∧
    bitSlice r.frame.toNat 135 72 = r.nextPos.toNat ∧ Response.ofFrame r.frame = some r

/-! ### The ports: commands, the host's writes, reset -/

/-- A step of an idle unit with a command presented is the command's own meaning, in the state where the command has been
taken off the port and latched and the unit is busy (R60, R68, R226). -/
def Obligations.StepRunsDecodedCommand : Prop :=
  ∀ (s : State) (f : Frame) (rest : List HostEvent) (i : Instr),
    s.host = .command f :: rest → s.busy = false → decode f = .ok i →
    step s = exec i { s with host := rest, busy := true, latched := f }

/-- R194: a frame whose `op` is `0x00` or `0x0E` to `0xFF` is answered `ILLEGAL_OP` with value 0 and next position 0,
whatever its other fields hold, and nothing else of the state changes. -/
def Obligations.ReservedOpcodeAnswersIllegalOp : Prop :=
  ∀ (s : State) (f : Frame) (rest : List HostEvent),
    s.host = .command f :: rest → s.busy = false → (f.fields.op = 0 ∨ 14 ≤ f.fields.op) →
    step s = .next ({ s with host := rest, busy := true, latched := f }.withRsp ⟨.illegalOp, 0, 0⟩)

/-- R68, R226, R228: while a command is in flight `cmd_ready` is 0 and the only thing a step without a reset does is that
the host accepts the response; the unit is then ready, and what the host does next still waits on the port. That the
acceptance is the very next step is the model's choice (log entry 8), and so is that the latched frame, the copy loop
variables, the chunk register and the response frame keep their contents after it (log entry 11). -/
def Obligations.BusyUnitOnlyGivesItsResponse : Prop :=
  ∀ s : State, s.busy = true → (∀ rest, s.host ≠ .reset :: rest) →
    s.cmdReady = false ∧
    ∃ t, step s = .next t ∧ t = { s with busy := false, rspValid := false } ∧ t.cmdReady = true

/-- R229, R40: between commands the host writes a byte of `MEM`: that byte is the byte written, every other byte and all
else is unchanged. An address at or above `MEM_BYTES` names no byte and stops the machine: the stop is the model's choice
(log entry 10). -/
def Obligations.HostWritesBetweenCommands : Prop :=
  ∀ (s : State) (x : Nat) (v : Byte) (rest : List HostEvent),
    s.mem.wf = true → s.host = .write x v :: rest → s.busy = false →
    (x < s.memBytes → ∃ m : Memory, step s = .next { s with host := rest, mem := m } ∧ m.read x = v ∧
      ∀ y, y ≠ x → m.read y = s.mem.read y) ∧
    (s.memBytes ≤ x → step s = .fault .hostWriteOutsideMemory)

/-- R202: an idle unit with nothing on its port does nothing. -/
def Obligations.IdleUnitDoesNothing : Prop :=
  ∀ s : State, s.host = [] → s.busy = false → step s = .next s

/-- R221, R29, R30: a reset of an idle unit leaves it idle and ready, and changes neither memory nor any register. That the
response frame keeps its contents is the model's choice (log entry 11). -/
def Obligations.ResetOfIdleUnitKeepsMemory : Prop :=
  ∀ (s : State) (rest : List HostEvent), s.host = .reset :: rest → s.busy = false →
    step s = .next { s with host := rest, busy := false, rspValid := false }

/-- R222: a reset while a command is in flight abandons it: no response stays on the port and the unit is idle. Every byte
outside the command's write footprint is unchanged (all of memory, for a command that writes none or that ended in an
error, R196); each byte of the footprint of a command that wrote holds a free byte, one draw each. The registers R29 does not reset
keep their contents. The free bytes' form, the empty footprint after an error and the kept response frame are the
model's (log entries 5 and 11). -/
def Obligations.ResetInFlightAbandonsCommand : Prop :=
  ∀ (s : State) (rest : List HostEvent), s.mem.wf = true → s.host = .reset :: rest → s.busy = true →
    ∃ t, step s = .next t ∧
      t = { s with host := rest, busy := false, rspValid := false, mem := t.mem,
                   draws := s.draws + s.abandonedSpan.size } ∧
      (∀ x, (∀ i, decode s.latched = .ok i → s.rsp.status = .ok → ¬(writeSpan i).Mem x) → t.mem.read x = s.mem.read x) ∧
      (∀ i x, decode s.latched = .ok i → s.rsp.status = .ok → (writeSpan i).Mem x →
        t.mem.read x = Config.freeByte (s.draws + (x - (writeSpan i).start)))

/-! ### Memory and the invariant -/

/-- R21, R27, R40: the canonical lists are exactly the contents of `MEM`: each content has one, and only one. -/
def Obligations.CanonicalListsAreMemoryContents : Prop :=
  (∀ (n : Nat) (content : Nat → Byte), ∃ m : Memory, m.wf = true ∧ m.within n = true ∧
    ∀ x, x < n → m.read x = content x) ∧
  (∀ (n : Nat) (m m' : Memory), m.wf = true → m'.wf = true → m.within n = true → m'.within n = true →
    (∀ x, x < n → m.read x = m'.read x) → m = m')

/-- R29, R30: the unit idle over any legal launch memory meets the invariant, and so does the machine after reset.
(The size and contents that `State.reset` itself has are the model's choice, log entries 1 and 2.) -/
def Obligations.LaunchMeetsInvariant : Prop :=
  (∀ (n : Nat) (image : Memory), 1 ≤ n → n ≤ Config.maxMemBytes → image.wf = true → image.within n = true →
    (State.launch n image).Inv) ∧ State.reset.Inv

/-- Every step keeps the invariant: the memory list stays canonical and lists only bytes that exist, a response is
presented exactly while a command is in flight, an error response carries no value, and what a reset would leave
unspecified exists. -/
def Obligations.StepKeepsInvariant : Prop :=
  ∀ s t : State, s.Inv → step s = .next t → t.Inv

/-! ### The byte accessor -/

/-- R90. -/
def Obligations.BigEndianReadIsPositionalSum : Prop :=
  ∀ (m : Memory) (base off n : Nat),
    readBytesBe m base off n = ∑ i ∈ Finset.range n, (m.read (base + off + i)).toNat * 256 ^ (n - 1 - i) ∧
    readBytesBe m base off n < 256 ^ n

/-- R91. -/
def Obligations.LittleEndianReadIsPositionalSum : Prop :=
  ∀ (m : Memory) (base off n : Nat),
    readBytesLe m base off n = ∑ i ∈ Finset.range n, (m.read (base + off + i)).toNat * 256 ^ i ∧
    readBytesLe m base off n < 256 ^ n

/-- R92. -/
def Obligations.BigEndianWriteStoresTruncatedValue : Prop :=
  ∀ (m : Memory) (base off n v : Nat), m.wf = true →
    (∀ i, i < n → ((writeBytesBe m base off n v).read (base + off + i)).toNat =
      ((v % 256 ^ n) >>> (8 * (n - 1 - i))) &&& 0xFF) ∧
    (∀ x, ¬(byteSpan ⟨base, 0⟩ off n).Mem x → (writeBytesBe m base off n v).read x = m.read x)

/-- R93. -/
def Obligations.LittleEndianWriteStoresTruncatedValue : Prop :=
  ∀ (m : Memory) (base off n v : Nat), m.wf = true →
    (∀ i, i < n → ((writeBytesLe m base off n v).read (base + off + i)).toNat =
      ((v % 256 ^ n) >>> (8 * i)) &&& 0xFF) ∧
    (∀ x, ¬(byteSpan ⟨base, 0⟩ off n).Mem x → (writeBytesLe m base off n v).read x = m.read x)

/-- R101: (a) each byte order reads back what it wrote; (b) a big-endian read of a little-endian write has the bytes
reversed; (c) for one byte the two orders are the same function. -/
def Obligations.ByteOrderLaws : Prop :=
  ∀ (m : Memory) (base off n v : Nat), m.wf = true → 1 ≤ n → n ≤ 8 →
    readBytesBe (writeBytesBe m base off n v) base off n = v % 256 ^ n ∧
    readBytesLe (writeBytesLe m base off n v) base off n = v % 256 ^ n ∧
    readBytesBe (writeBytesLe m base off n v) base off n =
      ∑ i ∈ Finset.range n, ((v >>> (8 * i)) &&& 0xFF) * 256 ^ (n - 1 - i) ∧
    readBytesBe m base off 1 = readBytesLe m base off 1 ∧
    writeBytesBe m base off 1 v = writeBytesLe m base off 1 v

/-- R94: `RDBYTES_BE`. -/
def Obligations.RdbytesBeReadsBigEndian : Prop :=
  ∀ (a : Buffer) (aPos len : Nat) (s : State),
    (Instr.rdbytesBe a aPos len).opcode = 0x08 ∧
    (len = 0 ∨ 8 < len → exec (.rdbytesBe a aPos len) s = .next (s.withRsp ⟨.invalidLength, 0, 0⟩)) ∧
    (1 ≤ len → len ≤ 8 → s.memBytes < a.base + a.nbytes ∨ a.nbytes < aPos + len →
      exec (.rdbytesBe a aPos len) s = .next (s.withRsp ⟨.outOfBounds, 0, 0⟩)) ∧
    (1 ≤ len → len ≤ 8 → a.base + a.nbytes ≤ s.memBytes → aPos + len ≤ a.nbytes →
      ∃ v : Word64, exec (.rdbytesBe a aPos len) s = .next (s.withRsp ⟨.ok, v, 0⟩) ∧
        v.toNat = ∑ i ∈ Finset.range len, (s.mem.read (a.base + aPos + i)).toNat * 256 ^ (len - 1 - i))

/-- R95: `RDBYTES_LE`. -/
def Obligations.RdbytesLeReadsLittleEndian : Prop :=
  ∀ (a : Buffer) (aPos len : Nat) (s : State),
    (Instr.rdbytesLe a aPos len).opcode = 0x09 ∧
    (len = 0 ∨ 8 < len → exec (.rdbytesLe a aPos len) s = .next (s.withRsp ⟨.invalidLength, 0, 0⟩)) ∧
    (1 ≤ len → len ≤ 8 → s.memBytes < a.base + a.nbytes ∨ a.nbytes < aPos + len →
      exec (.rdbytesLe a aPos len) s = .next (s.withRsp ⟨.outOfBounds, 0, 0⟩)) ∧
    (1 ≤ len → len ≤ 8 → a.base + a.nbytes ≤ s.memBytes → aPos + len ≤ a.nbytes →
      ∃ v : Word64, exec (.rdbytesLe a aPos len) s = .next (s.withRsp ⟨.ok, v, 0⟩) ∧
        v.toNat = ∑ i ∈ Finset.range len, (s.mem.read (a.base + aPos + i)).toNat * 256 ^ i)

/-- R96: `WRBYTES_BE`: exactly `len` bytes are written, the low `8*len` bits of the value, first byte most significant. -/
def Obligations.WrbytesBeWritesBigEndian : Prop :=
  ∀ (a : Buffer) (aPos len value : Nat) (s : State),
    (Instr.wrbytesBe a aPos len value).opcode = 0x0A ∧
    (len = 0 ∨ 8 < len → exec (.wrbytesBe a aPos len value) s = .next (s.withRsp ⟨.invalidLength, 0, 0⟩)) ∧
    (1 ≤ len → len ≤ 8 → s.memBytes < a.base + a.nbytes ∨ a.nbytes < aPos + len →
      exec (.wrbytesBe a aPos len value) s = .next (s.withRsp ⟨.outOfBounds, 0, 0⟩)) ∧
    (s.mem.wf = true → 1 ≤ len → len ≤ 8 → a.base + a.nbytes ≤ s.memBytes → aPos + len ≤ a.nbytes →
      ∃ m : Memory, exec (.wrbytesBe a aPos len value) s = .next ({ s with mem := m }.withRsp ⟨.ok, 0, 0⟩) ∧
        (∀ i, i < len → (m.read (a.base + aPos + i)).toNat = ((value % 256 ^ len) >>> (8 * (len - 1 - i))) &&& 0xFF) ∧
        (∀ x, ¬(byteSpan a aPos len).Mem x → m.read x = s.mem.read x))

/-- R97: `WRBYTES_LE`: exactly `len` bytes are written, the low `8*len` bits of the value, first byte least significant. -/
def Obligations.WrbytesLeWritesLittleEndian : Prop :=
  ∀ (a : Buffer) (aPos len value : Nat) (s : State),
    (Instr.wrbytesLe a aPos len value).opcode = 0x0B ∧
    (len = 0 ∨ 8 < len → exec (.wrbytesLe a aPos len value) s = .next (s.withRsp ⟨.invalidLength, 0, 0⟩)) ∧
    (1 ≤ len → len ≤ 8 → s.memBytes < a.base + a.nbytes ∨ a.nbytes < aPos + len →
      exec (.wrbytesLe a aPos len value) s = .next (s.withRsp ⟨.outOfBounds, 0, 0⟩)) ∧
    (s.mem.wf = true → 1 ≤ len → len ≤ 8 → a.base + a.nbytes ≤ s.memBytes → aPos + len ≤ a.nbytes →
      ∃ m : Memory, exec (.wrbytesLe a aPos len value) s = .next ({ s with mem := m }.withRsp ⟨.ok, 0, 0⟩) ∧
        (∀ i, i < len → (m.read (a.base + aPos + i)).toNat = ((value % 256 ^ len) >>> (8 * i)) &&& 0xFF) ∧
        (∀ x, ¬(byteSpan a aPos len).Mem x → m.read x = s.mem.read x))

/-- R98: `CPBYTES`: destination byte `i` is source byte `i` as it was before the command; every other byte is unchanged.
Intersecting ranges are undefined: `RefusalsAreOverlappingCopies`. -/
def Obligations.CpbytesCopiesBytes : Prop :=
  ∀ (a b : Buffer) (aPos bPos len : Nat) (s : State), (Instr.cpbytes a aPos b bPos len).WellFormed →
    (Instr.cpbytes a aPos b bPos len).opcode = 0x0C ∧
    (len = 0 → exec (.cpbytes a aPos b bPos len) s = .next (s.withRsp ⟨.invalidLength, 0, 0⟩)) ∧
    (1 ≤ len → (s.memBytes < a.base + a.nbytes ∨ s.memBytes < b.base + b.nbytes ∨ a.nbytes < aPos + len ∨
        b.nbytes < bPos + len) →
      exec (.cpbytes a aPos b bPos len) s = .next (s.withRsp ⟨.outOfBounds, 0, 0⟩)) ∧
    (s.mem.wf = true → 1 ≤ len → a.base + a.nbytes ≤ s.memBytes → b.base + b.nbytes ≤ s.memBytes →
      aPos + len ≤ a.nbytes → bPos + len ≤ b.nbytes →
      (∀ x, (byteSpan a aPos len).Mem x → ¬(byteSpan b bPos len).Mem x) →
      ∃ m : Memory, exec (.cpbytes a aPos b bPos len) s = .next ({ s with mem := m }.withRsp ⟨.ok, 0, 0⟩) ∧
        (∀ i, i < len → m.read (a.base + aPos + i) = s.mem.read (b.base + bPos + i)) ∧
        (∀ x, ¬(byteSpan a aPos len).Mem x → m.read x = s.mem.read x))

/-- R99: `ADVANCE`: `next_pos = a_pos + len`, memory neither read nor written; an error only when the sum does not fit,
and then the position is echoed. -/
def Obligations.AdvanceAddsPositions : Prop :=
  ∀ (aPos len : Nat) (s : State), (Instr.advance aPos len).WellFormed →
    (Instr.advance aPos len).opcode = 0x0D ∧
    (2 ^ 64 ≤ aPos + len →
      ∃ p : Word64, exec (.advance aPos len) s = .next (s.withRsp ⟨.outOfBounds, 0, p⟩) ∧ p.toNat = aPos) ∧
    (aPos + len < 2 ^ 64 →
      ∃ p : Word64, exec (.advance aPos len) s = .next (s.withRsp ⟨.ok, 0, p⟩) ∧ p.toNat = aPos + len)

/-! ### The bit-address algebra -/

/-- R119, R121: the involved-byte count counts the bytes from the first bit's to the last bit's; for `1 ≤ len ≤ 64` it is
1 to 9, 9 exactly when `offset + len ≥ 65`, and above 9 only for `len ≥ 66`. -/
def Obligations.InvolvedByteCountRange : Prop :=
  ∀ bit len : Nat, 1 ≤ len →
    involvedBytes bit len = addr (bit + len - 1) - addr bit + 1 ∧
    (len ≤ 64 → 1 ≤ involvedBytes bit len ∧ involvedBytes bit len ≤ 9 ∧
      (involvedBytes bit len = 9 ↔ 65 ≤ offset bit + len)) ∧
    (9 < involvedBytes bit len → 66 ≤ len)

/-- R122 (a) to (e): the 9-byte split is well formed. -/
def Obligations.NineByteSplitIsWellFormed : Prop :=
  ∀ bit len : Nat, 1 ≤ len → len ≤ 64 → involvedBytes bit len = 9 →
    ∃ lastLen leadLen : Nat, lastLen = bitsInLastByte bit len ∧ leadLen = len - lastLen ∧
      (1 ≤ lastLen ∧ lastLen ≤ 7 ∧ lastLen = offset bit + len - 64) ∧
      (leadLen = 64 - offset bit ∧ 57 ≤ leadLen ∧ leadLen ≤ 63) ∧
      (involvedBytes bit leadLen = 8 ∧ shiftAmount bit leadLen = 0) ∧
      (offset (bit + leadLen) = 0 ∧ involvedBytes (bit + leadLen) lastLen = 1) ∧
      shiftAmount (bit + leadLen) lastLen = 8 - lastLen

/-- R120: the last bit's offset gives the bits in the last byte and the shift. R123: the field, the `offset` bits above it
and the `s` bits below it fill the `8k`-bit container; memory bit `bit+i` is digit `s+len-1-i` of the big-endian number
of the covering bytes; and the shifted mask fits in the container. -/
def Obligations.FieldFitsItsContainer : Prop :=
  ∀ bit len : Nat, 1 ≤ len →
    offset (bit + len + 7) = offset (bit + len - 1) ∧
    bitsInLastByte bit len = 1 + offset (bit + len - 1) ∧ shiftAmount bit len = 7 - offset (bit + len - 1) ∧
    bitsInLastByte bit len + shiftAmount bit len = 8 ∧
    offset bit + len + shiftAmount bit len = 8 * involvedBytes bit len ∧
    mask len <<< shiftAmount bit len < 2 ^ (8 * involvedBytes bit len) ∧
    (∀ (m : Memory) (base i : Nat), i < len →
      (readBytesBe m base (addr bit) (involvedBytes bit len) >>> (shiftAmount bit len + len - 1 - i)) &&& 1 =
        membit m base (bit + i))

/-! ### The extractor -/

/-- R137: the read engine returns the field value, the memory bits `bit … bit+len-1` read first bit most significant, for
every bit address and length 1 to 64, the 9-byte split included. -/
def Obligations.ReadBitsIsFieldValue : Prop :=
  ∀ (m : Memory) (base bit len : Nat), 1 ≤ len → len ≤ 64 → readBits m base bit len = fieldval m base bit len

/-- R134: `RDBITS`. -/
def Obligations.RdbitsReadsField : Prop :=
  ∀ (a : Buffer) (aPos len : Nat) (s : State),
    (Instr.rdbits a aPos len).opcode = 0x01 ∧
    (len = 0 ∨ 64 < len → exec (.rdbits a aPos len) s = .next (s.withRsp ⟨.invalidLength, 0, 0⟩)) ∧
    (1 ≤ len → len ≤ 64 → s.memBytes < a.base + a.nbytes ∨ 8 * a.nbytes < aPos + len →
      exec (.rdbits a aPos len) s = .next (s.withRsp ⟨.outOfBounds, 0, 0⟩)) ∧
    (1 ≤ len → len ≤ 64 → a.base + a.nbytes ≤ s.memBytes → aPos + len ≤ 8 * a.nbytes →
      ∃ v : Word64, exec (.rdbits a aPos len) s = .next (s.withRsp ⟨.ok, v, 0⟩) ∧
        v.toNat = fieldval s.mem a.base aPos len)

/-- R135: `RDBITS_INC`: the value of `RDBITS`, and the cursor advanced by `len` bits; on an error it does not move. -/
def Obligations.RdbitsIncReadsFieldAndAdvances : Prop :=
  ∀ (a : Buffer) (aPos len : Nat) (s : State), (Instr.rdbitsInc a aPos len).WellFormed →
    (Instr.rdbitsInc a aPos len).opcode = 0x02 ∧
    (len = 0 ∨ 64 < len →
      ∃ p : Word64, exec (.rdbitsInc a aPos len) s = .next (s.withRsp ⟨.invalidLength, 0, p⟩) ∧ p.toNat = aPos) ∧
    (1 ≤ len → len ≤ 64 → s.memBytes < a.base + a.nbytes ∨ 8 * a.nbytes < aPos + len →
      ∃ p : Word64, exec (.rdbitsInc a aPos len) s = .next (s.withRsp ⟨.outOfBounds, 0, p⟩) ∧ p.toNat = aPos) ∧
    (1 ≤ len → len ≤ 64 → a.base + a.nbytes ≤ s.memBytes → aPos + len ≤ 8 * a.nbytes →
      ∃ v p : Word64, exec (.rdbitsInc a aPos len) s = .next (s.withRsp ⟨.ok, v, p⟩) ∧
        v.toNat = fieldval s.mem a.base aPos len ∧ p.toNat = aPos + len)

/-- R138: a chain of `RDBITS_INC` commands, each at the position the one before it answered, returns the values of
`RDBITS` at the positions added up by hand. -/
def Obligations.CursorChainEqualsDirectReads : Prop :=
  ∀ (a : Buffer) (pos : Nat) (lens : List Nat) (s : State),
    a.wf = true → a.base + a.nbytes ≤ s.memBytes → (∀ len ∈ lens, 1 ≤ len ∧ len ≤ 64) →
    pos + lens.sum ≤ 8 * a.nbytes →
    rdbitsIncChain a pos lens s = rdbitsChain a pos lens s ∧ (rdbitsChain a pos lens s).length = lens.length

/-- R25: the source's cursor form, a moving byte pointer with a bit offset, reads and writes the same bits as the packed
position with the base kept. -/
def Obligations.PointerCursorEqualsPosition : Prop :=
  ∀ (m : Memory) (base pos len value : Nat), 1 ≤ len →
    readBits m (base + addr pos) (offset pos) len = readBits m base pos len ∧
    writeBits m (base + addr pos) (offset pos) len value = writeBits m base pos len value

/-- R43, R139: a response depends on no byte outside the command's read footprint. -/
def Obligations.ResponseDependsOnReadFootprint : Prop :=
  ∀ (i : Instr) (s s' t t' : State), s.memBytes = s'.memBytes →
    (∀ x, (readSpan i).Mem x → s.mem.read x = s'.mem.read x) →
    exec i s = .next t → exec i s' = .next t' → t.rsp = t'.rsp

/-! ### The inserter -/

/-- R157: after the write engine the field's memory bits are the value's digits, no other memory bit of the buffer has
changed, and no byte outside the span is written. -/
def Obligations.WriteBitsSetsExactlyTheField : Prop :=
  ∀ (m : Memory) (base bit len value : Nat), m.wf = true → 1 ≤ len → len ≤ 64 →
    FieldWritten m (writeBits m base bit len value) base bit len value

/-- R151: the byte-by-byte loop of the fixed-width write has the effect of the rule's one line over the whole container. -/
def Obligations.FixedWriteIsContainerUpdate : Prop :=
  ∀ (m : Memory) (base bit len value : Nat), m.wf = true → 1 ≤ len → involvedBytes bit len ≤ 8 →
    writeFixed m base bit len value =
      writeBytesBe m base (addr bit) (involvedBytes bit len)
        ((readBytesBe m base (addr bit) (involvedBytes bit len) &&&
            (2 ^ (8 * involvedBytes bit len) - 1 - mask len <<< shiftAmount bit len)) |||
          ((value &&& mask len) <<< shiftAmount bit len))

/-- R154: `WRBITS`. -/
def Obligations.WrbitsWritesField : Prop :=
  ∀ (a : Buffer) (aPos len value : Nat) (s : State),
    (Instr.wrbits a aPos len value).opcode = 0x03 ∧
    (len = 0 ∨ 64 < len → exec (.wrbits a aPos len value) s = .next (s.withRsp ⟨.invalidLength, 0, 0⟩)) ∧
    (1 ≤ len → len ≤ 64 → s.memBytes < a.base + a.nbytes ∨ 8 * a.nbytes < aPos + len →
      exec (.wrbits a aPos len value) s = .next (s.withRsp ⟨.outOfBounds, 0, 0⟩)) ∧
    (s.mem.wf = true → 1 ≤ len → len ≤ 64 → a.base + a.nbytes ≤ s.memBytes → aPos + len ≤ 8 * a.nbytes →
      ∃ m : Memory, exec (.wrbits a aPos len value) s = .next ({ s with mem := m }.withRsp ⟨.ok, 0, 0⟩) ∧
        FieldWritten s.mem m a.base aPos len value)

/-- R155: `WRBITS_INC`: the write of `WRBITS`, and the cursor advanced by `len` bits; on an error it does not move. -/
def Obligations.WrbitsIncWritesFieldAndAdvances : Prop :=
  ∀ (a : Buffer) (aPos len value : Nat) (s : State), (Instr.wrbitsInc a aPos len value).WellFormed →
    (Instr.wrbitsInc a aPos len value).opcode = 0x04 ∧
    (len = 0 ∨ 64 < len →
      ∃ p : Word64, exec (.wrbitsInc a aPos len value) s = .next (s.withRsp ⟨.invalidLength, 0, p⟩) ∧ p.toNat = aPos) ∧
    (1 ≤ len → len ≤ 64 → s.memBytes < a.base + a.nbytes ∨ 8 * a.nbytes < aPos + len →
      ∃ p : Word64, exec (.wrbitsInc a aPos len value) s = .next (s.withRsp ⟨.outOfBounds, 0, p⟩) ∧ p.toNat = aPos) ∧
    (s.mem.wf = true → 1 ≤ len → len ≤ 64 → a.base + a.nbytes ≤ s.memBytes → aPos + len ≤ 8 * a.nbytes →
      ∃ (m : Memory) (p : Word64),
        exec (.wrbitsInc a aPos len value) s = .next ({ s with mem := m }.withRsp ⟨.ok, 0, p⟩) ∧
        FieldWritten s.mem m a.base aPos len value ∧ p.toNat = aPos + len)

/-- R156: `WRFLAG`: the one memory bit at `a_pos` becomes bit 0 of `value`; the length is 1 and cannot be invalid. -/
def Obligations.WrflagWritesOneBit : Prop :=
  ∀ (a : Buffer) (aPos value : Nat) (s : State),
    (Instr.wrflag a aPos value).opcode = 0x05 ∧
    (s.memBytes < a.base + a.nbytes ∨ 8 * a.nbytes < aPos + 1 →
      exec (.wrflag a aPos value) s = .next (s.withRsp ⟨.outOfBounds, 0, 0⟩)) ∧
    (s.mem.wf = true → a.base + a.nbytes ≤ s.memBytes → aPos + 1 ≤ 8 * a.nbytes →
      ∃ m : Memory, exec (.wrflag a aPos value) s = .next ({ s with mem := m }.withRsp ⟨.ok, 0, 0⟩) ∧
        membit m a.base aPos = value &&& 1 ∧ FieldWritten s.mem m a.base aPos 1 value)

/-- R158: a field read after it was written holds the value's low `len` bits, also after a second write to a field of the
buffer that shares no bit with it. -/
def Obligations.FieldReadsBackAsWritten : Prop :=
  ∀ (a : Buffer) (aPos len value : Nat) (s t : State), s.mem.wf = true →
    exec (.wrbits a aPos len value) s = .next t → t.rsp.status = .ok →
    (∃ v : Word64, exec (.rdbits a aPos len) t = .next (t.withRsp ⟨.ok, v, 0⟩) ∧ v.toNat = value &&& mask len) ∧
    (∀ (bit' len' value' : Nat) (u : State),
      exec (.wrbits a bit' len' value') t = .next u → u.rsp.status = .ok →
      (bit' + len' ≤ aPos ∨ aPos + len ≤ bit') →
      ∃ v : Word64, exec (.rdbits a aPos len) u = .next (u.withRsp ⟨.ok, v, 0⟩) ∧ v.toNat = value &&& mask len)

/-- R46: a field written by the bit engine appears in the big-endian number of its covering bytes at bits
`[shift_amount+len-1 : shift_amount]`. -/
def Obligations.BitFieldSeenThroughByteRead : Prop :=
  ∀ (m : Memory) (base bit len value : Nat), m.wf = true → 1 ≤ len → len ≤ 64 → involvedBytes bit len ≤ 8 →
    bitSlice (readBytesBe (writeBits m base bit len value) base (addr bit) (involvedBytes bit len))
      (shiftAmount bit len + len - 1) (shiftAmount bit len) = value &&& mask len

/-! ### The bit copy -/

/-- R172, R170, R174: `CPBITS`. Overlapping spans are undefined (R177): `RefusalsAreOverlappingCopies`. -/
def Obligations.CpbitsCopiesBits : Prop :=
  ∀ (a b : Buffer) (aPos len bPos : Nat) (s : State), (Instr.cpbits a aPos len b bPos).WellFormed →
    (Instr.cpbits a aPos len b bPos).opcode = 0x06 ∧
    (len = 0 → exec (.cpbits a aPos len b bPos) s = .next (s.withRsp ⟨.invalidLength, 0, 0⟩)) ∧
    (1 ≤ len → (s.memBytes < a.base + a.nbytes ∨ s.memBytes < b.base + b.nbytes ∨ 8 * a.nbytes < aPos + len ∨
        8 * b.nbytes < bPos + len) →
      exec (.cpbits a aPos len b bPos) s = .next (s.withRsp ⟨.outOfBounds, 0, 0⟩)) ∧
    (s.mem.wf = true → 1 ≤ len → a.base + a.nbytes ≤ s.memBytes → b.base + b.nbytes ≤ s.memBytes →
      aPos + len ≤ 8 * a.nbytes → bPos + len ≤ 8 * b.nbytes →
      (∀ x, (bitSpan a aPos len).Mem x → ¬(bitSpan b bPos len).Mem x) →
      ∃ t : State, exec (.cpbits a aPos len b bPos) s = .next t ∧
        t = { s with mem := t.mem, rem := t.rem, srcCur := t.srcCur, dstCur := t.dstCur, chunk := t.chunk }.withRsp
          ⟨.ok, 0, 0⟩ ∧
        BitsCopied s.mem t.mem a.base aPos len b.base bPos)

/-- R173: `CPBITS_INC`: the copy of `CPBITS`, and the source position advanced by `len` bits; on an error it is echoed. -/
def Obligations.CpbitsIncCopiesBitsAndAdvancesSource : Prop :=
  ∀ (a b : Buffer) (aPos len bPos : Nat) (s : State), (Instr.cpbitsInc a aPos len b bPos).WellFormed →
    (Instr.cpbitsInc a aPos len b bPos).opcode = 0x07 ∧
    (len = 0 →
      ∃ p : Word64, exec (.cpbitsInc a aPos len b bPos) s = .next (s.withRsp ⟨.invalidLength, 0, p⟩) ∧ p.toNat = bPos) ∧
    (1 ≤ len → (s.memBytes < a.base + a.nbytes ∨ s.memBytes < b.base + b.nbytes ∨ 8 * a.nbytes < aPos + len ∨
        8 * b.nbytes < bPos + len) →
      ∃ p : Word64, exec (.cpbitsInc a aPos len b bPos) s = .next (s.withRsp ⟨.outOfBounds, 0, p⟩) ∧ p.toNat = bPos) ∧
    (s.mem.wf = true → 1 ≤ len → a.base + a.nbytes ≤ s.memBytes → b.base + b.nbytes ≤ s.memBytes →
      aPos + len ≤ 8 * a.nbytes → bPos + len ≤ 8 * b.nbytes →
      (∀ x, (bitSpan a aPos len).Mem x → ¬(bitSpan b bPos len).Mem x) →
      ∃ (t : State) (p : Word64), exec (.cpbitsInc a aPos len b bPos) s = .next t ∧
        t = { s with mem := t.mem, rem := t.rem, srcCur := t.srcCur, dstCur := t.dstCur, chunk := t.chunk }.withRsp
          ⟨.ok, 0, p⟩ ∧
        p.toNat = bPos + len ∧ BitsCopied s.mem t.mem a.base aPos len b.base bPos)

/-- R177, R98, U3 (log entry 4): a well-formed command is refused exactly when it is a copy that passes its checks and
the byte span it reads and the byte span it writes have a byte in common. -/
def Obligations.RefusalsAreOverlappingCopies : Prop :=
  ∀ (i : Instr) (s : State) (r : Refusal), i.WellFormed →
    (exec i s = .refused r ↔
      r = .overlappingCopy ∧ isCopy i = true ∧ expectedStatus s.memBytes i = .ok ∧
        ∃ x, (readSpan i).Mem x ∧ (writeSpan i).Mem x)

/-- R175: `ceil(len / 64)` chunks are all there are: the loop given more turns does nothing more. -/
def Obligations.CopyEndsAfterItsChunks : Prop :=
  ∀ (s : State) (aBase aPos len bBase bPos more : Nat), len < 2 ^ 64 →
    State.copyLoop aBase bBase (copyChunks len + more) (s.copyStart aPos len bPos) = s.copyBits aBase aPos len bBase bPos

/-! ### Rules about every command -/

/-- R191, R192, R193, R195: a frame taken from the port by an idle unit is answered with exactly one status, the first that
applies of `ILLEGAL_OP`, `INVALID_LENGTH`, `OUT_OF_BOUNDS` (descriptor, then footprint), else `OK`. A copy that no
error applies to but that overlaps is undefined (R177): `RefusalsAreOverlappingCopies`. -/
def Obligations.StatusFollowsPriority : Prop :=
  ∀ (s : State) (f : Frame) (rest : List HostEvent), s.host = .command f :: rest → s.busy = false →
    (∀ e, decode f = .error e → ∃ t, step s = .next t ∧ t.rspValid = true ∧ t.rsp.status = .illegalOp) ∧
    (∀ i, decode f = .ok i → ¬(expectedStatus s.memBytes i = .ok ∧ copyOverlaps i = true) →
      ∃ t, step s = .next t ∧ t.rspValid = true ∧ t.rsp.status = expectedStatus s.memBytes i)

/-- R196: a command whose status is not `OK` leaves memory and every register as they were, answers the same over any
other memory (it reads no byte), answers value 0, and answers its input position where it has a cursor, else 0. -/
def Obligations.ErrorsLeaveNoTrace : Prop :=
  ∀ (s t : State) (f : Frame) (rest : List HostEvent), s.host = .command f :: rest → s.busy = false →
    step s = .next t → t.rsp.status ≠ .ok →
    t = { s with host := rest, busy := true, latched := f }.withRsp ⟨t.rsp.status, 0, t.rsp.nextPos⟩ ∧
    (∀ m : Memory, step { s with mem := m } = .next { t with mem := m }) ∧
    (∀ i, decode f = .ok i → t.rsp.nextPos.toNat = echoPos i) ∧
    (∀ e, decode f = .error e → t.rsp.nextPos = 0)

/-- R65: `next_pos` of every `OK` response, and value 0 for every command that reads no field (R64). -/
def Obligations.OkResponsesCarryNextPosition : Prop :=
  ∀ (i : Instr) (s t : State), i.WellFormed → exec i s = .next t → t.rsp.status = .ok →
    t.rsp.nextPos.toNat = okNextPos i ∧ (isRead i = false → t.rsp.value = 0)

/-- R43, R159: no command changes a byte outside its write footprint; a read and `ADVANCE` change none at all. -/
def Obligations.WritesStayInFootprint : Prop :=
  ∀ (i : Instr) (s t : State), i.WellFormed → s.mem.wf = true → exec i s = .next t →
    (∀ x, ¬(writeSpan i).Mem x → t.mem.read x = s.mem.read x) ∧
    ((writeSpan i).size = 0 → t.mem = s.mem)

/-- R20, R22, R26, R28: the frame of every command. It changes memory, the response, and, for a bit copy only, the copy
loop's variables and chunk register; the memory size, the host's further events, `busy`, the latched frame and the
draws counter are as before. -/
def Obligations.CommandsChangeNothingElse : Prop :=
  ∀ (i : Instr) (s t : State), exec i s = .next t →
    t.memBytes = s.memBytes ∧ t.host = s.host ∧ t.busy = s.busy ∧ t.latched = s.latched ∧ t.draws = s.draws ∧
    t.rspValid = true ∧
    ((∀ a aPos len b bPos, i ≠ .cpbits a aPos len b bPos ∧ i ≠ .cpbitsInc a aPos len b bPos) →
      t.rem = s.rem ∧ t.srcCur = s.srcCur ∧ t.dstCur = s.dstCur ∧ t.chunk = s.chunk)

/-- R20, R21, R29: what the unit's registers held before a command is never seen: equal commands on equal memories give
equal responses and equal memories, or are refused alike. -/
def Obligations.EqualCommandsOnEqualMemories : Prop :=
  ∀ (i : Instr) (s s' : State), s.memBytes = s'.memBytes → s.mem = s'.mem →
    (∀ t, exec i s = .next t → ∃ t', exec i s' = .next t' ∧ t'.mem = t.mem ∧ t'.rsp = t.rsp) ∧
    (∀ r, exec i s = .refused r → exec i s' = .refused r) ∧
    (∀ e, exec i s ≠ .fault e)

/-- R197: a command repeated after an error gives the same error. -/
def Obligations.RepeatedErrorIsTheSame : Prop :=
  ∀ (i : Instr) (s t : State), exec i s = .next t → t.rsp.status ≠ .ok → exec i t = .next t
end

