-- ==== Sys2Proof/Laws/State.lean ====
section
/-! SUPPORT. What each update of State does to each field: one lemma per field per update. -/

namespace Sys2Proof.Machine

@[simp] theorem respond_memBytes (s : State) (st : Status) (v p : Nat) : (s.respond st v p).memBytes = s.memBytes := rfl
@[simp] theorem respond_mem (s : State) (st : Status) (v p : Nat) : (s.respond st v p).mem = s.mem := rfl
@[simp] theorem respond_host (s : State) (st : Status) (v p : Nat) : (s.respond st v p).host = s.host := rfl
@[simp] theorem respond_busy (s : State) (st : Status) (v p : Nat) : (s.respond st v p).busy = s.busy := rfl
@[simp] theorem respond_latched (s : State) (st : Status) (v p : Nat) : (s.respond st v p).latched = s.latched := rfl
@[simp] theorem respond_rem (s : State) (st : Status) (v p : Nat) : (s.respond st v p).rem = s.rem := rfl
@[simp] theorem respond_srcCur (s : State) (st : Status) (v p : Nat) : (s.respond st v p).srcCur = s.srcCur := rfl
@[simp] theorem respond_dstCur (s : State) (st : Status) (v p : Nat) : (s.respond st v p).dstCur = s.dstCur := rfl
@[simp] theorem respond_chunk (s : State) (st : Status) (v p : Nat) : (s.respond st v p).chunk = s.chunk := rfl
@[simp] theorem respond_rspValid (s : State) (st : Status) (v p : Nat) : (s.respond st v p).rspValid = true := rfl
@[simp] theorem respond_rsp (s : State) (st : Status) (v p : Nat) :
    (s.respond st v p).rsp = ⟨st, BitVec.ofNat 64 v, BitVec.ofNat 64 p⟩ := rfl
@[simp] theorem respond_draws (s : State) (st : Status) (v p : Nat) : (s.respond st v p).draws = s.draws := rfl

@[simp] theorem raise_memBytes (s : State) (e : Error) (p : Nat) : (s.raise e p).memBytes = s.memBytes := rfl
@[simp] theorem raise_mem (s : State) (e : Error) (p : Nat) : (s.raise e p).mem = s.mem := rfl
@[simp] theorem raise_host (s : State) (e : Error) (p : Nat) : (s.raise e p).host = s.host := rfl
@[simp] theorem raise_busy (s : State) (e : Error) (p : Nat) : (s.raise e p).busy = s.busy := rfl
@[simp] theorem raise_latched (s : State) (e : Error) (p : Nat) : (s.raise e p).latched = s.latched := rfl
@[simp] theorem raise_rem (s : State) (e : Error) (p : Nat) : (s.raise e p).rem = s.rem := rfl
@[simp] theorem raise_srcCur (s : State) (e : Error) (p : Nat) : (s.raise e p).srcCur = s.srcCur := rfl
@[simp] theorem raise_dstCur (s : State) (e : Error) (p : Nat) : (s.raise e p).dstCur = s.dstCur := rfl
@[simp] theorem raise_chunk (s : State) (e : Error) (p : Nat) : (s.raise e p).chunk = s.chunk := rfl
@[simp] theorem raise_rspValid (s : State) (e : Error) (p : Nat) : (s.raise e p).rspValid = true := rfl
@[simp] theorem raise_rsp (s : State) (e : Error) (p : Nat) : (s.raise e p).rsp = ⟨e.status, 0, BitVec.ofNat 64 p⟩ := rfl
@[simp] theorem raise_draws (s : State) (e : Error) (p : Nat) : (s.raise e p).draws = s.draws := rfl

@[simp] theorem accept_memBytes (s : State) (f : Frame) : (s.accept f).memBytes = s.memBytes := rfl
@[simp] theorem accept_mem (s : State) (f : Frame) : (s.accept f).mem = s.mem := rfl
@[simp] theorem accept_host (s : State) (f : Frame) : (s.accept f).host = s.host := rfl
@[simp] theorem accept_busy (s : State) (f : Frame) : (s.accept f).busy = true := rfl
@[simp] theorem accept_latched (s : State) (f : Frame) : (s.accept f).latched = f := rfl
@[simp] theorem accept_rem (s : State) (f : Frame) : (s.accept f).rem = s.rem := rfl
@[simp] theorem accept_srcCur (s : State) (f : Frame) : (s.accept f).srcCur = s.srcCur := rfl
@[simp] theorem accept_dstCur (s : State) (f : Frame) : (s.accept f).dstCur = s.dstCur := rfl
@[simp] theorem accept_chunk (s : State) (f : Frame) : (s.accept f).chunk = s.chunk := rfl
@[simp] theorem accept_rspValid (s : State) (f : Frame) : (s.accept f).rspValid = s.rspValid := rfl
@[simp] theorem accept_rsp (s : State) (f : Frame) : (s.accept f).rsp = s.rsp := rfl
@[simp] theorem accept_draws (s : State) (f : Frame) : (s.accept f).draws = s.draws := rfl

@[simp] theorem acceptResponse_memBytes (s : State) : (s.acceptResponse).memBytes = s.memBytes := rfl
@[simp] theorem acceptResponse_mem (s : State) : (s.acceptResponse).mem = s.mem := rfl
@[simp] theorem acceptResponse_host (s : State) : (s.acceptResponse).host = s.host := rfl
@[simp] theorem acceptResponse_busy (s : State) : (s.acceptResponse).busy = false := rfl
@[simp] theorem acceptResponse_latched (s : State) : (s.acceptResponse).latched = s.latched := rfl
@[simp] theorem acceptResponse_rem (s : State) : (s.acceptResponse).rem = s.rem := rfl
@[simp] theorem acceptResponse_srcCur (s : State) : (s.acceptResponse).srcCur = s.srcCur := rfl
@[simp] theorem acceptResponse_dstCur (s : State) : (s.acceptResponse).dstCur = s.dstCur := rfl
@[simp] theorem acceptResponse_chunk (s : State) : (s.acceptResponse).chunk = s.chunk := rfl
@[simp] theorem acceptResponse_rspValid (s : State) : (s.acceptResponse).rspValid = false := rfl
@[simp] theorem acceptResponse_rsp (s : State) : (s.acceptResponse).rsp = s.rsp := rfl
@[simp] theorem acceptResponse_draws (s : State) : (s.acceptResponse).draws = s.draws := rfl

@[simp] theorem copyStart_memBytes (s : State) (aPos len bPos : Nat) :
    (s.copyStart aPos len bPos).memBytes = s.memBytes := rfl
@[simp] theorem copyStart_mem (s : State) (aPos len bPos : Nat) : (s.copyStart aPos len bPos).mem = s.mem := rfl
@[simp] theorem copyStart_host (s : State) (aPos len bPos : Nat) : (s.copyStart aPos len bPos).host = s.host := rfl
@[simp] theorem copyStart_busy (s : State) (aPos len bPos : Nat) : (s.copyStart aPos len bPos).busy = s.busy := rfl
@[simp] theorem copyStart_latched (s : State) (aPos len bPos : Nat) : (s.copyStart aPos len bPos).latched = s.latched := rfl
@[simp] theorem copyStart_rem (s : State) (aPos len bPos : Nat) :
    (s.copyStart aPos len bPos).rem = BitVec.ofNat 64 len := rfl
@[simp] theorem copyStart_srcCur (s : State) (aPos len bPos : Nat) :
    (s.copyStart aPos len bPos).srcCur = BitVec.ofNat 64 bPos := rfl
@[simp] theorem copyStart_dstCur (s : State) (aPos len bPos : Nat) :
    (s.copyStart aPos len bPos).dstCur = BitVec.ofNat 64 aPos := rfl
@[simp] theorem copyStart_chunk (s : State) (aPos len bPos : Nat) : (s.copyStart aPos len bPos).chunk = s.chunk := rfl
@[simp] theorem copyStart_rspValid (s : State) (aPos len bPos : Nat) :
    (s.copyStart aPos len bPos).rspValid = s.rspValid := rfl
@[simp] theorem copyStart_rsp (s : State) (aPos len bPos : Nat) : (s.copyStart aPos len bPos).rsp = s.rsp := rfl
@[simp] theorem copyStart_draws (s : State) (aPos len bPos : Nat) : (s.copyStart aPos len bPos).draws = s.draws := rfl

@[simp] theorem copyAdvance_memBytes (s : State) : (s.copyAdvance).memBytes = s.memBytes := rfl
@[simp] theorem copyAdvance_mem (s : State) : (s.copyAdvance).mem = s.mem := rfl
@[simp] theorem copyAdvance_host (s : State) : (s.copyAdvance).host = s.host := rfl
@[simp] theorem copyAdvance_busy (s : State) : (s.copyAdvance).busy = s.busy := rfl
@[simp] theorem copyAdvance_latched (s : State) : (s.copyAdvance).latched = s.latched := rfl
@[simp] theorem copyAdvance_rem (s : State) : (s.copyAdvance).rem = s.rem - 64 := rfl
@[simp] theorem copyAdvance_srcCur (s : State) : (s.copyAdvance).srcCur = s.srcCur + 64 := rfl
@[simp] theorem copyAdvance_dstCur (s : State) : (s.copyAdvance).dstCur = s.dstCur + 64 := rfl
@[simp] theorem copyAdvance_chunk (s : State) : (s.copyAdvance).chunk = s.chunk := rfl
@[simp] theorem copyAdvance_rspValid (s : State) : (s.copyAdvance).rspValid = s.rspValid := rfl
@[simp] theorem copyAdvance_rsp (s : State) : (s.copyAdvance).rsp = s.rsp := rfl
@[simp] theorem copyAdvance_draws (s : State) : (s.copyAdvance).draws = s.draws := rfl

@[simp] theorem copyChunk_memBytes (s : State) (aBase bBase n : Nat) :
    (State.copyChunk aBase bBase n s).memBytes = s.memBytes := rfl
theorem copyChunk_mem_raw (s : State) (aBase bBase n : Nat) :
    (State.copyChunk aBase bBase n s).mem = writeBits s.mem aBase s.dstCur.toNat n (BitVec.ofNat 64 (readBits s.mem bBase s.srcCur.toNat n)).toNat := rfl
@[simp] theorem copyChunk_host (s : State) (aBase bBase n : Nat) : (State.copyChunk aBase bBase n s).host = s.host := rfl
@[simp] theorem copyChunk_busy (s : State) (aBase bBase n : Nat) : (State.copyChunk aBase bBase n s).busy = s.busy := rfl
@[simp] theorem copyChunk_latched (s : State) (aBase bBase n : Nat) :
    (State.copyChunk aBase bBase n s).latched = s.latched := rfl
@[simp] theorem copyChunk_rem (s : State) (aBase bBase n : Nat) : (State.copyChunk aBase bBase n s).rem = s.rem := rfl
@[simp] theorem copyChunk_srcCur (s : State) (aBase bBase n : Nat) :
    (State.copyChunk aBase bBase n s).srcCur = s.srcCur := rfl
@[simp] theorem copyChunk_dstCur (s : State) (aBase bBase n : Nat) :
    (State.copyChunk aBase bBase n s).dstCur = s.dstCur := rfl
@[simp] theorem copyChunk_chunk (s : State) (aBase bBase n : Nat) :
    (State.copyChunk aBase bBase n s).chunk = BitVec.ofNat 64 (readBits s.mem bBase s.srcCur.toNat n) := rfl
@[simp] theorem copyChunk_rspValid (s : State) (aBase bBase n : Nat) :
    (State.copyChunk aBase bBase n s).rspValid = s.rspValid := rfl
@[simp] theorem copyChunk_rsp (s : State) (aBase bBase n : Nat) : (State.copyChunk aBase bBase n s).rsp = s.rsp := rfl
@[simp] theorem copyChunk_draws (s : State) (aBase bBase n : Nat) : (State.copyChunk aBase bBase n s).draws = s.draws := rfl

@[simp] theorem launch_memBytes (n : Nat) (image : Memory) : (State.launch n image).memBytes = n := rfl
@[simp] theorem launch_mem (n : Nat) (image : Memory) : (State.launch n image).mem = image := rfl
@[simp] theorem launch_host (n : Nat) (image : Memory) : (State.launch n image).host = [] := rfl
@[simp] theorem launch_busy (n : Nat) (image : Memory) : (State.launch n image).busy = false := rfl
@[simp] theorem launch_latched (n : Nat) (image : Memory) : (State.launch n image).latched = 0 := rfl
@[simp] theorem launch_rem (n : Nat) (image : Memory) : (State.launch n image).rem = 0 := rfl
@[simp] theorem launch_srcCur (n : Nat) (image : Memory) : (State.launch n image).srcCur = 0 := rfl
@[simp] theorem launch_dstCur (n : Nat) (image : Memory) : (State.launch n image).dstCur = 0 := rfl
@[simp] theorem launch_chunk (n : Nat) (image : Memory) : (State.launch n image).chunk = 0 := rfl
@[simp] theorem launch_rspValid (n : Nat) (image : Memory) : (State.launch n image).rspValid = false := rfl
@[simp] theorem launch_rsp (n : Nat) (image : Memory) : (State.launch n image).rsp = ⟨.ok, 0, 0⟩ := rfl
@[simp] theorem launch_draws (n : Nat) (image : Memory) : (State.launch n image).draws = 0 := rfl

end Sys2Proof.Machine
end

