-- ==== Sys2Proof/Laws/Checks.lean ====
section
/-! SUPPORT. The check sequences: when each passes, and what `guarded` can answer. -/

namespace Sys2Proof.Machine

/-- Everything `guarded` can do. -/
theorem guarded_cases (check : Option Error) (echo : Nat) (s : State) (go : State → Host.Outcome State Fault Refusal) :
    (∃ e, check = some e ∧ guarded check echo s go = .next (s.raise e echo)) ∨
      (check = none ∧ guarded check echo s go = go s) := by
  cases check with
  | some e => exact .inl ⟨e, rfl, rfl⟩
  | none => exact .inr ⟨rfl, rfl⟩

@[simp] theorem guarded_some (e : Error) (echo : Nat) (s : State) (go : State → Host.Outcome State Fault Refusal) :
    guarded (some e) echo s go = .next (s.raise e echo) := rfl

@[simp] theorem guarded_none (echo : Nat) (s : State) (go : State → Host.Outcome State Fault Refusal) :
    guarded none echo s go = go s := rfl

@[simp] theorem firstError_nil : firstError [] = none := rfl

@[simp] theorem firstError_cons (c : Bool) (e : Error) (rest : List (Bool × Error)) :
    firstError ((c, e) :: rest) = if c then some e else firstError rest := by cases c <;> rfl

/-- Everything `check_bytes` can answer (R100). -/
theorem checkBytes_eq (memBytes : Nat) (b : Buffer) (off n lo hi : Nat) :
    checkBytes memBytes b off n lo hi =
      if n < lo ∨ hi < n then some .invalidLength
      else if memBytes < b.base + b.nbytes ∨ b.nbytes < off + n then some .outOfBounds
      else none := by
  simp only [checkBytes, firstError_cons, firstError_nil, Buffer.invalid, Bool.or_eq_true, decide_eq_true_eq]
  split
  · rfl
  · split
    · simp [*]
    · simp [*]

/-- Everything `check_bits` can answer (R136). -/
theorem checkBits_eq (memBytes : Nat) (b : Buffer) (bit len : Nat) :
    checkBits memBytes b bit len =
      if len = 0 ∨ 64 < len then some .invalidLength
      else if memBytes < b.base + b.nbytes ∨ 8 * b.nbytes < bit + len then some .outOfBounds
      else none := by
  have h64 : Config.maxLen = 64 := rfl
  simp only [checkBits, firstError_cons, firstError_nil, Buffer.invalid, h64, Bool.or_eq_true, decide_eq_true_eq]
  split
  · rfl
  · split
    · simp [*]
    · simp [*]

/-- Everything `check_copy` can answer (R174). -/
theorem checkCopy_eq (memBytes : Nat) (a : Buffer) (aPos : Nat) (b : Buffer) (bPos len : Nat) :
    checkCopy memBytes a aPos b bPos len =
      if len = 0 then some .invalidLength
      else if memBytes < a.base + a.nbytes ∨ memBytes < b.base + b.nbytes ∨ 8 * a.nbytes < aPos + len ∨
          8 * b.nbytes < bPos + len then some .outOfBounds
      else none := by
  simp only [checkCopy, firstError_cons, firstError_nil, Buffer.invalid, decide_eq_true_eq]
  split
  · rfl
  · split
    · simp [*]
    · split
      · simp [*]
      · split <;> simp [*]

/-- Everything the two checks of `CPBYTES` can answer (R98, R100). -/
theorem checkCopyBytes_eq (memBytes : Nat) (a : Buffer) (aPos : Nat) (b : Buffer) (bPos len : Nat) :
    checkCopyBytes memBytes a aPos b bPos len =
      if len = 0 ∨ 2 ^ 64 - 1 < len then some .invalidLength
      else if memBytes < a.base + a.nbytes ∨ a.nbytes < aPos + len ∨ memBytes < b.base + b.nbytes ∨
          b.nbytes < bPos + len then some .outOfBounds
      else none := by
  simp only [checkCopyBytes, checkBytes_eq, Nat.lt_one_iff]
  by_cases hlen : len = 0 ∨ 2 ^ 64 - 1 < len
  · simp only [if_pos hlen]; rfl
  · simp only [if_neg hlen]
    by_cases ha : memBytes < a.base + a.nbytes ∨ a.nbytes < aPos + len
    · have hall : memBytes < a.base + a.nbytes ∨ a.nbytes < aPos + len ∨ memBytes < b.base + b.nbytes ∨
          b.nbytes < bPos + len := by tauto
      rw [if_pos ha, if_pos hall]; rfl
    · rw [if_neg ha, Option.none_or]
      simp only [not_or] at ha
      simp only [ha.1, ha.2, false_or]

/-- Everything the check of `ADVANCE` can answer (R99). -/
theorem checkAdvance_eq (aPos len : Nat) :
    checkAdvance aPos len = if 2 ^ 64 ≤ aPos + len then some .outOfBounds else none := by
  simp [checkAdvance]

end Sys2Proof.Machine
end

