-- ==== Sys2Proof/Laws/Memory.lean ====
section
/-! SUPPORT. The memory list: reads, writes, the canonical form, and lists of bytes. -/

namespace Sys2Proof.Machine.Memory

theorem wfFrom_cons {lo x : Nat} {v : Byte} {m : Memory} :
    wfFrom lo ((x, v) :: m) = true ↔ lo ≤ x ∧ v ≠ Config.unlistedByte ∧ wfFrom (x + 1) m = true := by
  simp [wfFrom, and_assoc]

theorem wfFrom_mono {lo lo' : Nat} {m : Memory} (h : wfFrom lo m = true) (hle : lo' ≤ lo) : wfFrom lo' m = true := by
  cases m with
  | nil => rfl
  | cons c m =>
    obtain ⟨x, v⟩ := c
    rw [wfFrom_cons] at *
    exact ⟨hle.trans h.1, h.2⟩

/-- Below the first address a canonical list may hold, every address reads as unlisted. -/
theorem read_of_lt {lo a : Nat} {m : Memory} (h : wfFrom lo m = true) (ha : a < lo) :
    read m a = Config.unlistedByte := by
  induction m generalizing lo with
  | nil => rfl
  | cons c m ih =>
    obtain ⟨x, v⟩ := c
    rw [wfFrom_cons] at h
    rw [read, if_neg (by omega)]
    exact ih h.2.2 (by omega)

/-- Read after write, from any canonical list. -/
theorem read_write_from {lo : Nat} {m : Memory} (h : wfFrom lo m = true) (a : Nat) (b : Byte) (x : Nat) :
    read (write m a b) x = if x = a then b else read m x := by
  induction m generalizing lo with
  | nil =>
    by_cases hb : b = Config.unlistedByte <;> by_cases hx : x = a <;> simp [write, read, hb, hx]
  | cons c m ih =>
    obtain ⟨y, v⟩ := c
    rw [wfFrom_cons] at h
    have hlow : ∀ z, z < y + 1 → read m z = Config.unlistedByte := fun z hz => read_of_lt h.2.2 hz
    by_cases hay : a < y
    · by_cases hb : b = Config.unlistedByte
      · simp only [write, if_pos hay, if_pos hb]
        split
        · subst x; rw [read, if_neg (by omega), hlow a (by omega), hb]
        · rfl
      · simp only [write, if_pos hay, if_neg hb]
        rw [read]
    · by_cases hay' : a = y
      · subst hay'
        by_cases hb : b = Config.unlistedByte
        · simp only [write, if_neg hay, if_pos hb, if_true]
          split
          · subst x; rw [hlow a (by omega), hb]
          · rw [read, if_neg ‹_›]
        · simp only [write, if_neg hay, if_neg hb, if_true]
          simp only [read]
          split <;> rfl
      · simp only [write, if_neg hay, if_neg hay']
        simp only [read]
        rw [ih h.2.2]
        by_cases hxy : x = y
        · simp [hxy, Ne.symm hay']
        · simp [hxy]

/-- Read after write: the written byte there, the old byte elsewhere (R50). -/
theorem read_write {m : Memory} (h : m.wf = true) (a : Nat) (b : Byte) (x : Nat) :
    read (write m a b) x = if x = a then b else read m x := read_write_from h a b x

theorem wfFrom_write {lo : Nat} {m : Memory} (h : wfFrom lo m = true) {a : Nat} (ha : lo ≤ a) (b : Byte) :
    wfFrom lo (write m a b) = true := by
  induction m generalizing lo with
  | nil =>
    by_cases hb : b = Config.unlistedByte
    · simp [write, hb, wfFrom]
    · simp only [write, if_neg hb, wfFrom_cons]; exact ⟨ha, hb, rfl⟩
  | cons c m ih =>
    obtain ⟨y, v⟩ := c
    have h' := h
    rw [wfFrom_cons] at h'
    obtain ⟨hy, hv, hm⟩ := h'
    simp only [write]
    split
    · split
      · exact h
      · rw [wfFrom_cons, wfFrom_cons]; exact ⟨ha, ‹_›, by omega, hv, hm⟩
    · split
      · subst a
        split
        · exact wfFrom_mono hm (by omega)
        · rw [wfFrom_cons]; exact ⟨hy, ‹_›, hm⟩
      · rw [wfFrom_cons]; exact ⟨hy, hv, ih hm (by omega)⟩

/-- A write keeps the canonical form. -/
theorem wf_write {m : Memory} (h : m.wf = true) (a : Nat) (b : Byte) : (write m a b).wf = true :=
  wfFrom_write h (Nat.zero_le a) b

/-- A write of a byte that exists lists no byte that does not. -/
theorem within_write {n : Nat} {m : Memory} (h : m.within n = true) {a : Nat} (ha : a < n) (b : Byte) :
    (write m a b).within n = true := by
  induction m with
  | nil => by_cases hb : b = Config.unlistedByte <;> simp [write, within, hb, ha]
  | cons c m ih =>
    obtain ⟨y, v⟩ := c
    simp only [within, List.all_cons, Bool.and_eq_true, decide_eq_true_eq] at h
    have := ih h.2
    simp only [within] at this
    simp only [write]
    split
    · split <;> simp [within, h, ha]
    · split
      · split <;> simp [within, h, ha]
      · simp [within, h, this]

end Sys2Proof.Machine.Memory

namespace Sys2Proof.Machine

@[simp] theorem memRead_length (m : Memory) (a n : Nat) : (memRead m a n).length = n := by
  induction n generalizing a with
  | zero => rfl
  | succ n ih => simp [memRead, ih]

/-- Byte `i` of `MemRead(a, n)` (R16). -/
theorem memRead_getElem (m : Memory) (a n i : Nat) (h : i < (memRead m a n).length) :
    (memRead m a n)[i] = m.read (a + i) := by
  induction n generalizing a i with
  | zero => simp [memRead] at h
  | succ n ih =>
    cases i with
    | zero => rfl
    | succ i =>
      simp only [memRead, List.getElem_cons_succ]
      rw [ih, Nat.add_right_comm, Nat.add_assoc]

/-- `MemRead` depends on nothing but the bytes it names. -/
theorem memRead_congr {m m' : Memory} {a n : Nat} (h : ∀ x, a ≤ x → x < a + n → m.read x = m'.read x) :
    memRead m a n = memRead m' a n := by
  induction n generalizing a with
  | zero => rfl
  | succ n ih =>
    rw [memRead, memRead, h a (by omega) (by omega), ih fun x h1 h2 => h x (by omega) (by omega)]

theorem memWrite_wf {m : Memory} (h : m.wf = true) (a : Nat) (bs : List Byte) : (memWrite m a bs).wf = true := by
  induction bs generalizing m a with
  | nil => exact h
  | cons b bs ih => exact ih (Memory.wf_write h a b) (a + 1)

theorem memWrite_within {n : Nat} {m : Memory} (h : m.within n = true) {a : Nat} {bs : List Byte}
    (ha : a + bs.length ≤ n) : (memWrite m a bs).within n = true := by
  induction bs generalizing m a with
  | nil => exact h
  | cons b bs ih =>
    simp only [List.length_cons] at ha
    exact ih (Memory.within_write h (by omega) b) (by omega)

/-- Everything `MemWrite(a, n, bytes)` does: its bytes in its place, every other byte as before (R16). -/
theorem read_memWrite {m : Memory} (h : m.wf = true) (a : Nat) (bs : List Byte) (x : Nat) :
    (memWrite m a bs).read x = if hx : a ≤ x ∧ x < a + bs.length then bs[x - a]'(by omega) else m.read x := by
  induction bs generalizing m a with
  | nil =>
    rw [memWrite, dif_neg]
    simp only [List.length_nil]; omega
  | cons b bs ih =>
    rw [memWrite, ih (Memory.wf_write h a b), Memory.read_write h]
    simp only [List.length_cons]
    by_cases hx : x = a
    · subst hx
      rw [dif_neg (by omega), if_pos rfl, dif_pos (by omega)]
      simp
    · rw [if_neg hx]
      by_cases hin : a + 1 ≤ x ∧ x < a + 1 + bs.length
      · rw [dif_pos hin, dif_pos (by omega)]
        obtain ⟨k, rfl⟩ : ∃ k, x = a + 1 + k := ⟨x - (a + 1), by omega⟩
        have h1 : a + 1 + k - (a + 1) = k := by omega
        have h2 : a + 1 + k - a = k + 1 := by omega
        simp only [h1, h2, List.getElem_cons_succ]
      · rw [dif_neg hin, dif_neg (by omega)]

theorem be_lt (bs : List Byte) : be bs < 256 ^ bs.length := by
  induction bs with
  | nil => simp [be]
  | cons b bs ih =>
    have hb := b.isLt
    simp only [be, List.length_cons, pow_succ]
    have : b.toNat * 256 ^ bs.length ≤ 255 * 256 ^ bs.length := Nat.mul_le_mul_right _ (by omega)
    omega

theorem le_lt (bs : List Byte) : le bs < 256 ^ bs.length := by
  induction bs with
  | nil => simp [le]
  | cons b bs ih =>
    have hb := b.isLt
    simp only [le, List.length_cons, pow_succ]
    omega

@[simp] theorem beBytes_length (n v : Nat) : (beBytes n v).length = n := by simp [beBytes]

@[simp] theorem leBytes_length (n v : Nat) : (leBytes n v).length = n := by simp [leBytes]

/-- Byte `i` of `beBytes` (R92). -/
theorem beBytes_getElem (n v i : Nat) (h : i < (beBytes n v).length) :
    (beBytes n v)[i] = BitVec.ofNat 8 ((v % 256 ^ n) >>> (8 * (n - 1 - i))) := by simp [beBytes]

/-- Byte `i` of `leBytes` (R93). -/
theorem leBytes_getElem (n v i : Nat) (h : i < (leBytes n v).length) :
    (leBytes n v)[i] = BitVec.ofNat 8 ((v % 256 ^ n) >>> (8 * i)) := by simp [leBytes]

/-- Bit `j` of a big-endian number is bit `j % 8` of the byte `j / 8` places from its end (R90). -/
theorem be_testBit (bs : List Byte) (j : Nat) (h : j < 8 * bs.length) :
    (be bs).testBit j = (bs[bs.length - 1 - j / 8]'(by omega)).toNat.testBit (j % 8) := by
  induction bs with
  | nil => simp at h
  | cons b bs ih =>
    simp only [List.length_cons] at h
    have hpow : (256 : Nat) ^ bs.length = 2 ^ (8 * bs.length) := by
      rw [pow_mul]; norm_num
    have hlt : be bs < 2 ^ (8 * bs.length) := hpow ▸ be_lt bs
    rw [be, hpow, Nat.mul_comm, Nat.testBit_two_pow_mul_add _ hlt]
    by_cases hj : j < 8 * bs.length
    · rw [if_pos hj, ih hj]
      have : bs.length + 1 - 1 - j / 8 = (bs.length - 1 - j / 8) + 1 := by omega
      simp only [List.length_cons, this, List.getElem_cons_succ]
    · rw [if_neg hj]
      have h1 : (b :: bs).length - 1 - j / 8 = 0 := by simp only [List.length_cons]; omega
      have h2 : j - 8 * bs.length = j % 8 := by omega
      simp only [h1, List.getElem_cons_zero, h2]

/-- Bit `j` of `read_bytes_be` (R90). -/
theorem readBytesBe_testBit (m : Memory) (base off n j : Nat) (h : j < 8 * n) :
    (readBytesBe m base off n).testBit j = (m.read (base + off + (n - 1 - j / 8))).toNat.testBit (j % 8) := by
  rw [readBytesBe, be_testBit _ _ (by simpa using h), memRead_getElem, memRead_length]

end Sys2Proof.Machine
end

