-- ==== Sys2Proof/Laws/Engine.lean ====
section
/-! SUPPORT. The bit-address functions as division and remainder, and what the fixed-width read and write do, bit by bit. -/

namespace Sys2Proof.Machine

theorem addr_eq (bit : Nat) : addr bit = bit / 8 := by simp [addr, Nat.shiftRight_eq_div_pow]

theorem offset_eq (bit : Nat) : offset bit = bit % 8 := by
  have := Nat.and_two_pow_sub_one_eq_mod bit 3
  simpa [offset] using this

theorem involvedBytes_eq (bit len : Nat) : involvedBytes bit len = 1 + (bit % 8 + len - 1) / 8 := by
  simp [involvedBytes, addr_eq, offset_eq]

theorem bitsInLastByte_eq (bit len : Nat) : bitsInLastByte bit len = 1 + (bit + len + 7) % 8 := by
  simp [bitsInLastByte, offset_eq]

theorem shiftAmount_eq (bit len : Nat) : shiftAmount bit len = 7 - (bit + len + 7) % 8 := by
  simp [shiftAmount, offset_eq]

theorem mask_testBit (len t : Nat) : (mask len).testBit t = decide (t < len) := by
  simp [mask, Nat.testBit_two_pow_sub_one]

theorem and_mask (v len : Nat) : v &&& mask len = v % 2 ^ len := Nat.and_two_pow_sub_one_eq_mod v len

/-- Memory bit `b` of the buffer at `base` as a truth value (R15). -/
def bitAt (m : Memory) (base b : Nat) : Bool := (m.read (base + b / 8)).toNat.testBit (7 - b % 8)

theorem membit_eq (m : Memory) (base b : Nat) : membit m base b = (bitAt m base b).toNat := by
  rw [membit, bitAt, Nat.testBit, Nat.and_comm]
  have h : 1 &&& (m.read (base + b / 8)).toNat >>> (7 - b % 8) < 2 := by
    rw [Nat.and_comm, Nat.and_one_is_mod]; omega
  rcases Nat.lt_succ_iff_lt_or_eq.mp h with h | h
  · have h0 : 1 &&& (m.read (base + b / 8)).toNat >>> (7 - b % 8) = 0 := by omega
    simp [h0]
  · simp [h]

/-- Two memories that agree on every bit of a byte agree on the byte. -/
theorem read_eq_of_bitAt {m m' : Memory} {base i : Nat}
    (h : ∀ p, p < 8 → bitAt m base (8 * i + p) = bitAt m' base (8 * i + p)) :
    m.read (base + i) = m'.read (base + i) := by
  apply BitVec.eq_of_toNat_eq
  apply Nat.eq_of_testBit_eq
  intro j
  by_cases hj : j < 8
  · have := h (7 - j) (by omega)
    simp only [bitAt] at this
    rwa [show (8 * i + (7 - j)) / 8 = i by omega, show 7 - (8 * i + (7 - j)) % 8 = j by omega] at this
  · have hb : ∀ c : Byte, c.toNat.testBit j = false := fun c =>
      Nat.testBit_lt_two_pow (c.isLt.trans_le (Nat.pow_le_pow_right (by omega) (by omega)))
    rw [hb, hb]

/-- The digits of a field value (R18). -/
theorem fieldval_testBit (m : Memory) (base bit len t : Nat) :
    (fieldval m base bit len).testBit t = (decide (t < len) && bitAt m base (bit + len - 1 - t)) := by
  induction len generalizing t with
  | zero => simp [fieldval]
  | succ len ih =>
    rw [fieldval, membit_eq]
    have hlt : (bitAt m base (bit + len)).toNat < 2 ^ 1 := by cases bitAt m base (bit + len) <;> decide
    have := Nat.testBit_two_pow_mul_add (fieldval m base bit len) hlt t
    rw [show (2 : Nat) ^ 1 = 2 from rfl] at this
    rw [this]
    cases t with
    | zero => cases hb : bitAt m base (bit + len) <;> simp [hb]
    | succ t =>
      rw [if_neg (by omega), Nat.add_sub_cancel, ih]
      congr 2
      · simp
      · omega

theorem fieldval_lt (m : Memory) (base bit len : Nat) : fieldval m base bit len < 2 ^ len := by
  induction len with
  | zero => simp [fieldval]
  | succ len ih =>
    rw [fieldval, membit_eq, pow_succ]
    cases bitAt m base (bit + len) <;> simp <;> omega

/-- Everything `read_fixed` does: its digits are the memory bits of the field, first bit most significant (R131). -/
theorem readFixed_testBit (m : Memory) (base bit len t : Nat) (hlen : 1 ≤ len) :
    (readFixed m base bit len).testBit t = (decide (t < len) && bitAt m base (bit + len - 1 - t)) := by
  rw [readFixed, Nat.testBit_and, mask_testBit, Nat.testBit_shiftRight, Bool.and_comm]
  by_cases ht : t < len
  · have hk : involvedBytes bit len = 1 + (bit + len - 1) / 8 - bit / 8 := by rw [involvedBytes_eq]; omega
    have hs : shiftAmount bit len = 7 - (bit + len - 1) % 8 := by rw [shiftAmount_eq]; omega
    have hbyte : base + addr bit + (involvedBytes bit len - 1 - (shiftAmount bit len + t) / 8) =
        base + (bit + len - 1 - t) / 8 := by rw [hk, hs, addr_eq]; omega
    have hpos : (shiftAmount bit len + t) % 8 = 7 - (bit + len - 1 - t) % 8 := by rw [hs]; omega
    rw [readBytesBe_testBit, bitAt, hbyte, hpos]
    rw [hs, hk]; omega
  · simp [ht]

theorem readFixed_lt (m : Memory) (base bit len : Nat) : readFixed m base bit len < 2 ^ len := by
  rw [readFixed, and_mask]; exact Nat.mod_lt _ (Nat.two_pow_pos len)

/-- One turn of `write_fixed`'s loop writes one byte, in the read-modify-write form also where it overwrites (R151). -/
theorem writeFixedByte_eq (k fm fv a0 : Nat) (m : Memory) (j : Nat) :
    writeFixedByte k fm fv a0 m j =
      m.write (a0 + j) (BitVec.ofNat 8 (((m.read (a0 + j)).toNat &&& (0xFF - ((fm >>> (8 * (k - 1 - j))) &&& 0xFF))) |||
        ((fv >>> (8 * (k - 1 - j))) &&& 0xFF))) := by
  rw [writeFixedByte]
  split
  · rename_i h; rw [h]; simp
  · rfl

theorem foldl_writeFixedByte_wf {m : Memory} (h : m.wf = true) (k fm fv a0 n : Nat) :
    ((List.range n).foldl (writeFixedByte k fm fv a0) m).wf = true := by
  induction n with
  | zero => exact h
  | succ n ih =>
    rw [List.range_succ, List.foldl_append, List.foldl_cons, List.foldl_nil, writeFixedByte_eq]
    exact Memory.wf_write ih _ _

theorem foldl_writeFixedByte_within {N : Nat} {m : Memory} (h : m.within N = true) (k fm fv a0 n : Nat)
    (hn : a0 + n ≤ N) : ((List.range n).foldl (writeFixedByte k fm fv a0) m).within N = true := by
  induction n with
  | zero => exact h
  | succ n ih =>
    rw [List.range_succ, List.foldl_append, List.foldl_cons, List.foldl_nil, writeFixedByte_eq]
    exact Memory.within_write (ih (by omega)) (by omega) _

/-- What the first `n` turns of `write_fixed`'s loop leave in every byte. -/
theorem read_foldl_writeFixedByte {m : Memory} (h : m.wf = true) (k fm fv a0 n x : Nat) :
    ((List.range n).foldl (writeFixedByte k fm fv a0) m).read x =
      if a0 ≤ x ∧ x < a0 + n then
        BitVec.ofNat 8 (((m.read x).toNat &&& (0xFF - ((fm >>> (8 * (k - 1 - (x - a0)))) &&& 0xFF))) |||
          ((fv >>> (8 * (k - 1 - (x - a0)))) &&& 0xFF))
      else m.read x := by
  induction n with
  | zero => rw [if_neg (by omega)]; rfl
  | succ n ih =>
    rw [List.range_succ, List.foldl_append, List.foldl_cons, List.foldl_nil, writeFixedByte_eq,
      Memory.read_write (foldl_writeFixedByte_wf h ..)]
    by_cases hx : x = a0 + n
    · subst hx
      rw [if_pos rfl, if_pos (by omega), ih, if_neg (by omega), Nat.add_sub_cancel_left]
    · rw [if_neg hx, ih]
      by_cases hin : a0 ≤ x ∧ x < a0 + n
      · rw [if_pos hin, if_pos (by omega)]
      · rw [if_neg hin, if_neg (by omega)]

theorem writeFixed_wf {m : Memory} (h : m.wf = true) (base bit len v : Nat) : (writeFixed m base bit len v).wf = true :=
  foldl_writeFixedByte_wf h ..

theorem writeFixed_within {N : Nat} {m : Memory} (h : m.within N = true) (base bit len v : Nat)
    (hn : base + addr bit + involvedBytes bit len ≤ N) : (writeFixed m base bit len v).within N = true :=
  foldl_writeFixedByte_within h _ _ _ _ _ hn

/-- `write_fixed` writes no byte outside the span of its field (R159). -/
theorem read_writeFixed_outside {m : Memory} (h : m.wf = true) (base bit len v x : Nat)
    (hx : x < base + addr bit ∨ base + addr bit + involvedBytes bit len ≤ x) :
    (writeFixed m base bit len v).read x = m.read x := by
  rw [writeFixed, read_foldl_writeFixedByte h, if_neg (by omega)]

/-- A byte read, modified and written, bit by bit: mask bits select the new value. -/
theorem byte_update_testBit (old fm fv c p : Nat) (hsub : ∀ t, fv.testBit t → fm.testBit t) (hp : p < 8) :
    (BitVec.ofNat 8 ((old &&& (0xFF - ((fm >>> c) &&& 0xFF))) ||| ((fv >>> c) &&& 0xFF))).toNat.testBit p =
      if fm.testBit (c + p) then fv.testBit (c + p) else old.testBit p := by
  have hff : ∀ q, (0xFF : Nat).testBit q = decide (q < 8) := fun q => by
    rw [show (0xFF : Nat) = 2 ^ 8 - 1 from rfl, Nat.testBit_two_pow_sub_one]
  have hm : (fm >>> c) &&& 0xFF < 2 ^ 8 := Nat.and_lt_two_pow _ (by norm_num)
  rw [BitVec.toNat_ofNat, Nat.testBit_mod_two_pow, Nat.testBit_or, Nat.testBit_and, Nat.testBit_and,
    show (0xFF : Nat) - ((fm >>> c) &&& 0xFF) = 2 ^ 8 - (((fm >>> c) &&& 0xFF) + 1) by omega,
    Nat.testBit_two_pow_sub_succ hm, Nat.testBit_and, Nat.testBit_shiftRight, Nat.testBit_shiftRight, hff]
  have hs := hsub (c + p)
  cases h1 : fm.testBit (c + p) <;> cases h2 : fv.testBit (c + p) <;> simp_all

/-- Everything `write_fixed` does: memory bit `bit+i` of the field becomes the value's digit `len-1-i`, every other memory
bit of the buffer stays (R151). -/
theorem bitAt_writeFixed {m : Memory} (h : m.wf = true) (base bit len v b : Nat) (hlen : 1 ≤ len) :
    bitAt (writeFixed m base bit len v) base b =
      if bit ≤ b ∧ b < bit + len then v.testBit (bit + len - 1 - b) else bitAt m base b := by
  have hk := involvedBytes_eq bit len
  have hs := shiftAmount_eq bit len
  have ha := addr_eq bit
  simp only [bitAt, writeFixed]
  rw [read_foldl_writeFixedByte h]
  by_cases hin : base + addr bit ≤ base + b / 8 ∧ base + b / 8 < base + addr bit + involvedBytes bit len
  · rw [if_pos hin, byte_update_testBit _ _ _ _ _ _ (by omega)]
    · simp only [Nat.testBit_shiftLeft, Nat.testBit_and, mask_testBit]
      have hq : 8 * (involvedBytes bit len - 1 - (base + b / 8 - (base + addr bit))) + (7 - b % 8) =
          8 * involvedBytes bit len - 1 - (b - 8 * addr bit) := by omega
      rw [hq]
      by_cases hb : bit ≤ b ∧ b < bit + len
      · have h1 : shiftAmount bit len ≤ 8 * involvedBytes bit len - 1 - (b - 8 * addr bit) := by omega
        have h2 : 8 * involvedBytes bit len - 1 - (b - 8 * addr bit) - shiftAmount bit len = bit + len - 1 - b := by omega
        have h3 : bit + len - 1 - b < len := by omega
        simp [h1, h2, h3, hb]
      · have h1 : ¬(shiftAmount bit len ≤ 8 * involvedBytes bit len - 1 - (b - 8 * addr bit) ∧
            8 * involvedBytes bit len - 1 - (b - 8 * addr bit) - shiftAmount bit len < len) := by omega
        rw [if_neg hb, if_neg]
        simpa using h1
    · intro t
      simp only [Nat.testBit_shiftLeft, Nat.testBit_and, mask_testBit]
      simp only [Bool.and_eq_true]
      tauto
  · rw [if_neg hin, if_neg]
    omega

/-- The `n` bits of a copy chunk fit the chunk register (R28). -/
theorem readBits_lt (m : Memory) (base bit len : Nat) (hlen : 1 ≤ len) (h64 : len ≤ 64) :
    readBits m base bit len < 2 ^ len := by
  rw [readBits]
  split
  · exact readFixed_lt m base bit len
  · rename_i hk
    rw [involvedBytes_eq] at hk
    have hl := bitsInLastByte_eq bit len
    have h1 := readFixed_lt m base bit (len - bitsInLastByte bit len)
    have h2 := readFixed_lt m base (bit + (len - bitsInLastByte bit len)) (bitsInLastByte bit len)
    simp only [readSplit9]
    refine Nat.or_lt_two_pow ?_ (h2.trans_le (Nat.pow_le_pow_right (by omega) (by omega)))
    rw [Nat.shiftLeft_eq]
    calc _ < 2 ^ (len - bitsInLastByte bit len) * 2 ^ bitsInLastByte bit len :=
          Nat.mul_lt_mul_of_pos_right h1 (Nat.two_pow_pos _)
      _ = 2 ^ len := by rw [← pow_add]; congr 1; omega

theorem writeBits_wf {m : Memory} (h : m.wf = true) (base bit len v : Nat) : (writeBits m base bit len v).wf = true := by
  rw [writeBits]
  split
  · exact writeFixed_wf h ..
  · exact writeFixed_wf (writeFixed_wf h ..) ..

/-- `write_bits` writes no byte outside the span of its field (R159). -/
theorem read_writeBits_outside {m : Memory} (h : m.wf = true) (base bit len v x : Nat) (hlen : 1 ≤ len) (h64 : len ≤ 64)
    (hx : x < base + addr bit ∨ base + addr bit + involvedBytes bit len ≤ x) :
    (writeBits m base bit len v).read x = m.read x := by
  rw [writeBits]
  split
  · exact read_writeFixed_outside h _ _ _ _ _ hx
  · rename_i hk
    have hl := bitsInLastByte_eq bit len
    have h1 := involvedBytes_eq bit (len - bitsInLastByte bit len)
    have h2 := involvedBytes_eq (bit + (len - bitsInLastByte bit len)) (bitsInLastByte bit len)
    have h3 := addr_eq bit
    have h4 := addr_eq (bit + (len - bitsInLastByte bit len))
    rw [involvedBytes_eq] at hk hx
    simp only [writeSplit9]
    rw [read_writeFixed_outside (writeFixed_wf h ..) _ _ _ _ _ (by omega), read_writeFixed_outside h _ _ _ _ _ (by omega)]

theorem writeBits_within {N : Nat} {m : Memory} (h : m.within N = true) (base bit len v : Nat) (hlen : 1 ≤ len)
    (h64 : len ≤ 64) (hn : base + addr bit + involvedBytes bit len ≤ N) : (writeBits m base bit len v).within N = true := by
  rw [writeBits]
  split
  · exact writeFixed_within h _ _ _ _ hn
  · rename_i hk
    have hl := bitsInLastByte_eq bit len
    have h1 := involvedBytes_eq bit (len - bitsInLastByte bit len)
    have h2 := involvedBytes_eq (bit + (len - bitsInLastByte bit len)) (bitsInLastByte bit len)
    have h3 := addr_eq bit
    have h4 := addr_eq (bit + (len - bitsInLastByte bit len))
    rw [involvedBytes_eq] at hk hn
    exact writeFixed_within (writeFixed_within h _ _ _ _ (by omega)) _ _ _ _ (by omega)

end Sys2Proof.Machine
end

