-- ==== Sys2Proof/Laws/Copy.lean ====
section
/-! SUPPORT. The copy loop: what it never touches, and that it keeps the memory list canonical. -/

namespace Sys2Proof.Machine

@[simp] theorem copyLoop_memBytes (aBase bBase fuel : Nat) (s : State) :
    (State.copyLoop aBase bBase fuel s).memBytes = s.memBytes := by
  induction fuel generalizing s with
  | zero => rfl
  | succ fuel ih =>
    rw [State.copyLoop]
    split
    · rw [ih]; rfl
    · split <;> rfl

@[simp] theorem copyBits_memBytes (s : State) (aBase aPos len bBase bPos : Nat) :
    (s.copyBits aBase aPos len bBase bPos).memBytes = s.memBytes := by simp [State.copyBits]

@[simp] theorem copyLoop_host (aBase bBase fuel : Nat) (s : State) :
    (State.copyLoop aBase bBase fuel s).host = s.host := by
  induction fuel generalizing s with
  | zero => rfl
  | succ fuel ih =>
    rw [State.copyLoop]
    split
    · rw [ih]; rfl
    · split <;> rfl

@[simp] theorem copyBits_host (s : State) (aBase aPos len bBase bPos : Nat) :
    (s.copyBits aBase aPos len bBase bPos).host = s.host := by simp [State.copyBits]

@[simp] theorem copyLoop_busy (aBase bBase fuel : Nat) (s : State) :
    (State.copyLoop aBase bBase fuel s).busy = s.busy := by
  induction fuel generalizing s with
  | zero => rfl
  | succ fuel ih =>
    rw [State.copyLoop]
    split
    · rw [ih]; rfl
    · split <;> rfl

@[simp] theorem copyBits_busy (s : State) (aBase aPos len bBase bPos : Nat) :
    (s.copyBits aBase aPos len bBase bPos).busy = s.busy := by simp [State.copyBits]

@[simp] theorem copyLoop_latched (aBase bBase fuel : Nat) (s : State) :
    (State.copyLoop aBase bBase fuel s).latched = s.latched := by
  induction fuel generalizing s with
  | zero => rfl
  | succ fuel ih =>
    rw [State.copyLoop]
    split
    · rw [ih]; rfl
    · split <;> rfl

@[simp] theorem copyBits_latched (s : State) (aBase aPos len bBase bPos : Nat) :
    (s.copyBits aBase aPos len bBase bPos).latched = s.latched := by simp [State.copyBits]

@[simp] theorem copyLoop_rspValid (aBase bBase fuel : Nat) (s : State) :
    (State.copyLoop aBase bBase fuel s).rspValid = s.rspValid := by
  induction fuel generalizing s with
  | zero => rfl
  | succ fuel ih =>
    rw [State.copyLoop]
    split
    · rw [ih]; rfl
    · split <;> rfl

@[simp] theorem copyBits_rspValid (s : State) (aBase aPos len bBase bPos : Nat) :
    (s.copyBits aBase aPos len bBase bPos).rspValid = s.rspValid := by simp [State.copyBits]

@[simp] theorem copyLoop_rsp (aBase bBase fuel : Nat) (s : State) :
    (State.copyLoop aBase bBase fuel s).rsp = s.rsp := by
  induction fuel generalizing s with
  | zero => rfl
  | succ fuel ih =>
    rw [State.copyLoop]
    split
    · rw [ih]; rfl
    · split <;> rfl

@[simp] theorem copyBits_rsp (s : State) (aBase aPos len bBase bPos : Nat) :
    (s.copyBits aBase aPos len bBase bPos).rsp = s.rsp := by simp [State.copyBits]

@[simp] theorem copyLoop_draws (aBase bBase fuel : Nat) (s : State) :
    (State.copyLoop aBase bBase fuel s).draws = s.draws := by
  induction fuel generalizing s with
  | zero => rfl
  | succ fuel ih =>
    rw [State.copyLoop]
    split
    · rw [ih]; rfl
    · split <;> rfl

@[simp] theorem copyBits_draws (s : State) (aBase aPos len bBase bPos : Nat) :
    (s.copyBits aBase aPos len bBase bPos).draws = s.draws := by simp [State.copyBits]

theorem copyLoop_wf (aBase bBase fuel : Nat) (s : State) (h : s.mem.wf = true) :
    (State.copyLoop aBase bBase fuel s).mem.wf = true := by
  induction fuel generalizing s with
  | zero => exact h
  | succ fuel ih =>
    rw [State.copyLoop]
    split
    · exact ih _ (writeBits_wf h ..)
    · split
      · exact writeBits_wf h ..
      · exact h

theorem copyBits_wf {s : State} (h : s.mem.wf = true) (aBase aPos len bBase bPos : Nat) :
    (s.copyBits aBase aPos len bBase bPos).mem.wf = true := copyLoop_wf _ _ _ _ h

/-- The chunk register holds the chunk that was read: no bit of it is lost (R28, R171). -/
theorem copyChunk_mem (s : State) (aBase bBase n : Nat) (hn : 1 ≤ n) (h64 : n ≤ 64) :
    (State.copyChunk aBase bBase n s).mem =
      writeBits s.mem aBase s.dstCur.toNat n (readBits s.mem bBase s.srcCur.toNat n) := by
  rw [copyChunk_mem_raw, BitVec.toNat_ofNat, Nat.mod_eq_of_lt]
  exact (readBits_lt _ _ _ _ hn h64).trans_le (Nat.pow_le_pow_right (by omega) h64)

end Sys2Proof.Machine
end

