-- ==== Sys2Proof/Laws/Encode.lean ====
section
/-! SUPPORT. A frame built from fields that fit holds those fields (R61). -/

namespace Sys2Proof

@[simp] theorem Buffer.wf_iff (b : Buffer) : b.wf = true ↔ b.base < 2 ^ 32 ∧ b.nbytes < 2 ^ 32 := by
  rw [Buffer.wf, Bool.and_eq_true, decide_eq_true_iff, decide_eq_true_iff]; rfl

@[simp] theorem posWf_iff (n : Nat) : posWf n = true ↔ n < 2 ^ 64 := by rw [posWf, decide_eq_true_iff]; rfl

@[simp] theorem valueWf_iff (v : Nat) : valueWf v = true ↔ v < 2 ^ 64 := by rw [valueWf, decide_eq_true_iff]; rfl

/-- Each field fits its place in the frame (the widths of R61). -/
structure Fields.Fits (x : Fields) : Prop where
  op : x.op < 2 ^ 8
  aBase : x.aBase < 2 ^ 32
  aNbytes : x.aNbytes < 2 ^ 32
  aPos : x.aPos < 2 ^ 64
  bBase : x.bBase < 2 ^ 32
  bNbytes : x.bNbytes < 2 ^ 32
  bPos : x.bPos < 2 ^ 64
  len : x.len < 2 ^ 64
  value : x.value < 2 ^ 64

theorem bitSlice_eq (v hi lo : Nat) : bitSlice v hi lo = v / 2 ^ lo % 2 ^ (hi - lo + 1) := by
  rw [bitSlice, Nat.shiftRight_eq_div_pow]

theorem fields_frame {x : Fields} (h : x.Fits) : x.frame.fields = x := by
  obtain ⟨op, aBase, aNbytes, aPos, bBase, bNbytes, bPos, len, value⟩ := x
  obtain ⟨h1, h2, h3, h4, h5, h6, h7, h8, h9⟩ := h
  simp only at h1 h2 h3 h4 h5 h6 h7 h8 h9
  simp only [Frame.fields, Fields.frame, bitSlice_eq, BitVec.toNat_ofNat, Nat.shiftLeft_eq, Fields.mk.injEq]
  refine ⟨?_, ?_, ?_, ?_, ?_, ?_, ?_, ?_, ?_⟩ <;> omega

/-- The fields of a well-formed command fit their places. -/
theorem toFields_fit {i : Instr} (h : i.WellFormed) : i.toFields.Fits := by
  cases i <;> simp only [Instr.WellFormed, Instr.wf, Bool.and_eq_true, Buffer.wf_iff, posWf_iff, valueWf_iff] at h <;>
    constructor <;> simp only [Instr.toFields, Instr.opcode] <;> omega

/-- Every field of every frame fits its place. -/
theorem frame_fields_fit (f : Frame) : f.fields.Fits := by
  constructor <;> exact Nat.mod_lt _ (Nat.two_pow_pos _)

end Sys2Proof
end

