-- ==== Sys2Proof/Laws/Exec.lean ====
section
/-! SUPPORT. Each command as one equation: which error it raises, when it stops, what it does otherwise. The proofs about a
command cite these and unfold no meaning. -/

namespace Sys2Proof.Machine

/-- The answer of a command whose check has three outcomes. -/
theorem guarded_ite (p q : Prop) [Decidable p] [Decidable q] (e e' : Error) (echo : Nat) (s : State)
    (go : State → Host.Outcome State Fault Refusal) :
    guarded (if p then some e else if q then some e' else none) echo s go =
      if p then .next (s.raise e echo) else if q then .next (s.raise e' echo) else go s := by
  split
  · rfl
  · split <;> rfl

/-- `RDBITS` (R134). -/
theorem exec_rdbits (a : Buffer) (aPos len : Nat) (s : State) :
    exec (.rdbits a aPos len) s =
      if len = 0 ∨ 64 < len then .next (s.raise .invalidLength 0)
      else if s.memBytes < a.base + a.nbytes ∨ 8 * a.nbytes < aPos + len then .next (s.raise .outOfBounds 0)
      else .next (s.respond .ok (readBits s.mem a.base aPos len) 0) := by
  simp only [exec, execRdbits, checkBits_eq, guarded_ite]

/-- `RDBITS_INC` (R135). -/
theorem exec_rdbitsInc (a : Buffer) (aPos len : Nat) (s : State) :
    exec (.rdbitsInc a aPos len) s =
      if len = 0 ∨ 64 < len then .next (s.raise .invalidLength aPos)
      else if s.memBytes < a.base + a.nbytes ∨ 8 * a.nbytes < aPos + len then .next (s.raise .outOfBounds aPos)
      else .next (s.respond .ok (readBits s.mem a.base aPos len) (aPos + len)) := by
  simp only [exec, execRdbitsInc, checkBits_eq, guarded_ite]

/-- `WRBITS` (R154). -/
theorem exec_wrbits (a : Buffer) (aPos len value : Nat) (s : State) :
    exec (.wrbits a aPos len value) s =
      if len = 0 ∨ 64 < len then .next (s.raise .invalidLength 0)
      else if s.memBytes < a.base + a.nbytes ∨ 8 * a.nbytes < aPos + len then .next (s.raise .outOfBounds 0)
      else .next ({ s with mem := writeBits s.mem a.base aPos len value }.respond .ok 0 0) := by
  simp only [exec, execWrbits, checkBits_eq, guarded_ite]

/-- `WRBITS_INC` (R155). -/
theorem exec_wrbitsInc (a : Buffer) (aPos len value : Nat) (s : State) :
    exec (.wrbitsInc a aPos len value) s =
      if len = 0 ∨ 64 < len then .next (s.raise .invalidLength aPos)
      else if s.memBytes < a.base + a.nbytes ∨ 8 * a.nbytes < aPos + len then .next (s.raise .outOfBounds aPos)
      else .next ({ s with mem := writeBits s.mem a.base aPos len value }.respond .ok 0 (aPos + len)) := by
  simp only [exec, execWrbitsInc, checkBits_eq, guarded_ite]

/-- `WRFLAG` (R156). -/
theorem exec_wrflag (a : Buffer) (aPos value : Nat) (s : State) :
    exec (.wrflag a aPos value) s =
      if s.memBytes < a.base + a.nbytes ∨ 8 * a.nbytes < aPos + 1 then .next (s.raise .outOfBounds 0)
      else .next ({ s with mem := writeBits s.mem a.base aPos 1 (value &&& 1) }.respond .ok 0 0) := by
  simp only [exec, execWrflag, checkBits_eq, guarded_ite]
  rw [if_neg (by omega)]

/-- `CPBITS` (R172). -/
theorem exec_cpbits (a : Buffer) (aPos len : Nat) (b : Buffer) (bPos : Nat) (s : State) :
    exec (.cpbits a aPos len b bPos) s =
      if len = 0 then .next (s.raise .invalidLength 0)
      else if s.memBytes < a.base + a.nbytes ∨ s.memBytes < b.base + b.nbytes ∨ 8 * a.nbytes < aPos + len ∨
          8 * b.nbytes < bPos + len then .next (s.raise .outOfBounds 0)
      else if (bitSpan a aPos len).overlaps (bitSpan b bPos len) then .refused .overlappingCopy
      else .next ((s.copyBits a.base aPos len b.base bPos).respond .ok 0 0) := by
  simp only [exec, execCpbits, checkCopy_eq, guarded_ite]

/-- `CPBITS_INC` (R173). -/
theorem exec_cpbitsInc (a : Buffer) (aPos len : Nat) (b : Buffer) (bPos : Nat) (s : State) :
    exec (.cpbitsInc a aPos len b bPos) s =
      if len = 0 then .next (s.raise .invalidLength bPos)
      else if s.memBytes < a.base + a.nbytes ∨ s.memBytes < b.base + b.nbytes ∨ 8 * a.nbytes < aPos + len ∨
          8 * b.nbytes < bPos + len then .next (s.raise .outOfBounds bPos)
      else if (bitSpan a aPos len).overlaps (bitSpan b bPos len) then .refused .overlappingCopy
      else .next ((s.copyBits a.base aPos len b.base bPos).respond .ok 0 (bPos + len)) := by
  simp only [exec, execCpbitsInc, checkCopy_eq, guarded_ite]

/-- `RDBYTES_BE` (R94). -/
theorem exec_rdbytesBe (a : Buffer) (aPos len : Nat) (s : State) :
    exec (.rdbytesBe a aPos len) s =
      if len = 0 ∨ 8 < len then .next (s.raise .invalidLength 0)
      else if s.memBytes < a.base + a.nbytes ∨ a.nbytes < aPos + len then .next (s.raise .outOfBounds 0)
      else .next (s.respond .ok (readBytesBe s.mem a.base aPos len) 0) := by
  have h8 : Config.maxN = 8 := rfl
  simp only [exec, execRdbytesBe, checkBytes_eq, guarded_ite, Nat.lt_one_iff, h8]

/-- `RDBYTES_LE` (R95). -/
theorem exec_rdbytesLe (a : Buffer) (aPos len : Nat) (s : State) :
    exec (.rdbytesLe a aPos len) s =
      if len = 0 ∨ 8 < len then .next (s.raise .invalidLength 0)
      else if s.memBytes < a.base + a.nbytes ∨ a.nbytes < aPos + len then .next (s.raise .outOfBounds 0)
      else .next (s.respond .ok (readBytesLe s.mem a.base aPos len) 0) := by
  have h8 : Config.maxN = 8 := rfl
  simp only [exec, execRdbytesLe, checkBytes_eq, guarded_ite, Nat.lt_one_iff, h8]

/-- `WRBYTES_BE` (R96). -/
theorem exec_wrbytesBe (a : Buffer) (aPos len value : Nat) (s : State) :
    exec (.wrbytesBe a aPos len value) s =
      if len = 0 ∨ 8 < len then .next (s.raise .invalidLength 0)
      else if s.memBytes < a.base + a.nbytes ∨ a.nbytes < aPos + len then .next (s.raise .outOfBounds 0)
      else .next ({ s with mem := writeBytesBe s.mem a.base aPos len value }.respond .ok 0 0) := by
  have h8 : Config.maxN = 8 := rfl
  simp only [exec, execWrbytesBe, checkBytes_eq, guarded_ite, Nat.lt_one_iff, h8]

/-- `WRBYTES_LE` (R97). -/
theorem exec_wrbytesLe (a : Buffer) (aPos len value : Nat) (s : State) :
    exec (.wrbytesLe a aPos len value) s =
      if len = 0 ∨ 8 < len then .next (s.raise .invalidLength 0)
      else if s.memBytes < a.base + a.nbytes ∨ a.nbytes < aPos + len then .next (s.raise .outOfBounds 0)
      else .next ({ s with mem := writeBytesLe s.mem a.base aPos len value }.respond .ok 0 0) := by
  have h8 : Config.maxN = 8 := rfl
  simp only [exec, execWrbytesLe, checkBytes_eq, guarded_ite, Nat.lt_one_iff, h8]

/-- `CPBYTES` (R98). -/
theorem exec_cpbytes (a : Buffer) (aPos : Nat) (b : Buffer) (bPos len : Nat) (s : State) :
    exec (.cpbytes a aPos b bPos len) s =
      if len = 0 ∨ 2 ^ 64 - 1 < len then .next (s.raise .invalidLength 0)
      else if s.memBytes < a.base + a.nbytes ∨ a.nbytes < aPos + len ∨ s.memBytes < b.base + b.nbytes ∨
          b.nbytes < bPos + len then .next (s.raise .outOfBounds 0)
      else if (byteSpan a aPos len).overlaps (byteSpan b bPos len) then .refused .overlappingCopy
      else .next ({ s with mem := memWrite s.mem (a.base + aPos) (memRead s.mem (b.base + bPos) len) }.respond .ok 0 0) := by
  simp only [exec, execCpbytes, checkCopyBytes_eq, guarded_ite]

/-- `ADVANCE` (R99). -/
theorem exec_advance (aPos len : Nat) (s : State) :
    exec (.advance aPos len) s =
      if 2 ^ 64 ≤ aPos + len then .next (s.raise .outOfBounds aPos) else .next (s.respond .ok 0 (aPos + len)) := by
  simp only [exec, execAdvance, checkAdvance_eq]
  split <;> rfl

end Sys2Proof.Machine
end

