-- ==== Sys2Proof/Laws/PerInstr.lean ====
section
/-! SUPPORT. One lemma per command of the family `DecodeFields`: the fields the encoder lays out for a command are read
back as that command (R62, R66). -/

namespace Sys2Proof.Laws.DecodeFields

def Statement (i : Instr) : Prop := decodeFields i.toFields = .ok i

theorem rdbits (a : Buffer) (aPos len : Nat) : Statement (.rdbits a aPos len) := rfl
theorem rdbitsInc (a : Buffer) (aPos len : Nat) : Statement (.rdbitsInc a aPos len) := rfl
theorem wrbits (a : Buffer) (aPos len value : Nat) : Statement (.wrbits a aPos len value) := rfl
theorem wrbitsInc (a : Buffer) (aPos len value : Nat) : Statement (.wrbitsInc a aPos len value) := rfl
theorem wrflag (a : Buffer) (aPos value : Nat) : Statement (.wrflag a aPos value) := rfl
theorem cpbits (a : Buffer) (aPos len : Nat) (b : Buffer) (bPos : Nat) : Statement (.cpbits a aPos len b bPos) := rfl
theorem cpbitsInc (a : Buffer) (aPos len : Nat) (b : Buffer) (bPos : Nat) : Statement (.cpbitsInc a aPos len b bPos) := rfl
theorem rdbytesBe (a : Buffer) (aPos len : Nat) : Statement (.rdbytesBe a aPos len) := rfl
theorem rdbytesLe (a : Buffer) (aPos len : Nat) : Statement (.rdbytesLe a aPos len) := rfl
theorem wrbytesBe (a : Buffer) (aPos len value : Nat) : Statement (.wrbytesBe a aPos len value) := rfl
theorem wrbytesLe (a : Buffer) (aPos len value : Nat) : Statement (.wrbytesLe a aPos len value) := rfl
theorem cpbytes (a : Buffer) (aPos : Nat) (b : Buffer) (bPos len : Nat) : Statement (.cpbytes a aPos b bPos len) := rfl
theorem advance (aPos len : Nat) : Statement (.advance aPos len) := rfl

end Sys2Proof.Laws.DecodeFields
end

