-- ==== Sys2Proof/Laws/Port.lean ====
section
/-! SUPPORT. The ports: what a reset draws, and what each event makes of a step. -/

namespace Sys2Proof.Machine

@[simp] theorem drawBytes_memBytes (s : State) (a n : Nat) : (s.drawBytes a n).memBytes = s.memBytes := by
  induction n generalizing s a with
  | zero => rfl
  | succ n ih => rw [State.drawBytes, ih]

@[simp] theorem drawBytes_host (s : State) (a n : Nat) : (s.drawBytes a n).host = s.host := by
  induction n generalizing s a with
  | zero => rfl
  | succ n ih => rw [State.drawBytes, ih]

@[simp] theorem drawBytes_busy (s : State) (a n : Nat) : (s.drawBytes a n).busy = s.busy := by
  induction n generalizing s a with
  | zero => rfl
  | succ n ih => rw [State.drawBytes, ih]

@[simp] theorem drawBytes_latched (s : State) (a n : Nat) : (s.drawBytes a n).latched = s.latched := by
  induction n generalizing s a with
  | zero => rfl
  | succ n ih => rw [State.drawBytes, ih]

@[simp] theorem drawBytes_rem (s : State) (a n : Nat) : (s.drawBytes a n).rem = s.rem := by
  induction n generalizing s a with
  | zero => rfl
  | succ n ih => rw [State.drawBytes, ih]

@[simp] theorem drawBytes_srcCur (s : State) (a n : Nat) : (s.drawBytes a n).srcCur = s.srcCur := by
  induction n generalizing s a with
  | zero => rfl
  | succ n ih => rw [State.drawBytes, ih]

@[simp] theorem drawBytes_dstCur (s : State) (a n : Nat) : (s.drawBytes a n).dstCur = s.dstCur := by
  induction n generalizing s a with
  | zero => rfl
  | succ n ih => rw [State.drawBytes, ih]

@[simp] theorem drawBytes_chunk (s : State) (a n : Nat) : (s.drawBytes a n).chunk = s.chunk := by
  induction n generalizing s a with
  | zero => rfl
  | succ n ih => rw [State.drawBytes, ih]

@[simp] theorem drawBytes_rspValid (s : State) (a n : Nat) : (s.drawBytes a n).rspValid = s.rspValid := by
  induction n generalizing s a with
  | zero => rfl
  | succ n ih => rw [State.drawBytes, ih]

@[simp] theorem drawBytes_rsp (s : State) (a n : Nat) : (s.drawBytes a n).rsp = s.rsp := by
  induction n generalizing s a with
  | zero => rfl
  | succ n ih => rw [State.drawBytes, ih]

@[simp] theorem drawBytes_draws (s : State) (a n : Nat) : (s.drawBytes a n).draws = s.draws + n := by
  induction n generalizing s a with
  | zero => rfl
  | succ n ih => rw [State.drawBytes, ih, Nat.add_assoc, Nat.add_comm 1]

theorem drawBytes_wf {s : State} (h : s.mem.wf = true) (a n : Nat) : (s.drawBytes a n).mem.wf = true := by
  induction n generalizing s a with
  | zero => exact h
  | succ n ih => exact ih (s := { s with mem := _, draws := _ }) (Memory.wf_write h _ _) (a + 1)

theorem drawBytes_within {N : Nat} {s : State} (h : s.mem.within N = true) {a n : Nat} (hn : a + n ≤ N) :
    (s.drawBytes a n).mem.within N = true := by
  induction n generalizing s a with
  | zero => exact h
  | succ n ih =>
    exact ih (s := { s with mem := _, draws := _ }) (Memory.within_write h (by omega) _) (by omega)

/-- Everything a draw of `n` bytes from `a` does to memory: each is a fresh free byte, every other byte stays (R222). -/
theorem read_drawBytes {s : State} (h : s.mem.wf = true) (a n x : Nat) :
    (s.drawBytes a n).mem.read x =
      if a ≤ x ∧ x < a + n then Config.freeByte (s.draws + (x - a)) else s.mem.read x := by
  induction n generalizing s a with
  | zero => rw [if_neg (by omega)]; rfl
  | succ n ih =>
    rw [State.drawBytes, ih (s := { s with mem := _, draws := _ }) (Memory.wf_write h _ _)]
    simp only
    rw [Memory.read_write h]
    by_cases hx : x = a
    · subst hx
      rw [if_neg (by omega), if_pos rfl, if_pos (by omega), Nat.sub_self, Nat.add_zero]
    · rw [if_neg hx]
      by_cases hin : a + 1 ≤ x ∧ x < a + 1 + n
      · rw [if_pos hin, if_pos (by omega)]; congr 1; omega
      · rw [if_neg hin, if_neg (by omega)]

theorem step_reset {s : State} {rest : List HostEvent} (h : s.host = .reset :: rest) :
    step s = .next { s with host := rest }.applyReset := by rw [step, h]

theorem step_idle {s : State} (h : s.host = []) (hb : s.busy = false) : step s = .next s := by simp [step, h, hb]

theorem step_command {s : State} {f : Frame} {rest : List HostEvent} (h : s.host = .command f :: rest)
    (hb : s.busy = false) : step s = runFrame f ({ s with host := rest }.accept f) := by simp [step, h, hb]

theorem step_write {s : State} {a : Nat} {b : Byte} {rest : List HostEvent} (h : s.host = .write a b :: rest)
    (hb : s.busy = false) : step s = hostWrite a b { s with host := rest } := by simp [step, h, hb]

theorem step_busy {s : State} (h : ∀ rest, s.host ≠ .reset :: rest) (hb : s.busy = true) :
    step s = .next s.acceptResponse := by
  rw [step]
  split
  · rename_i rest hr; exact absurd hr (h rest)
  · rw [if_pos hb]
  · rw [if_pos hb]
  · rw [if_pos hb]

end Sys2Proof.Machine
end

