-- ==== Sys2Proof/Text.lean ====
section
/-! DEFINITION. How the spec writes commands, responses and frames down (R71, R74). Nothing else depends on it. -/

namespace Sys2Proof

/-- A buffer descriptor, `[base:nbytes]` (R71). -/
def Buffer.text (b : Buffer) : String := "[" ++ toString b.base ++ ":" ++ toString b.nbytes ++ "]"

/-- The mnemonic of a command (R66). -/
def Instr.mnemonic : Instr → String
  | .rdbits _ _ _ => "RDBITS"
  | .rdbitsInc _ _ _ => "RDBITS_INC"
  | .wrbits _ _ _ _ => "WRBITS"
  | .wrbitsInc _ _ _ _ => "WRBITS_INC"
  | .wrflag _ _ _ => "WRFLAG"
  | .cpbits _ _ _ _ _ => "CPBITS"
  | .cpbitsInc _ _ _ _ _ => "CPBITS_INC"
  | .rdbytesBe _ _ _ => "RDBYTES_BE"
  | .rdbytesLe _ _ _ => "RDBYTES_LE"
  | .wrbytesBe _ _ _ _ => "WRBYTES_BE"
  | .wrbytesLe _ _ _ _ => "WRBYTES_LE"
  | .cpbytes _ _ _ _ _ => "CPBYTES"
  | .advance _ _ => "ADVANCE"

/-- The operands of a command as R71 orders them, numbers in decimal. -/
def Instr.operandTexts : Instr → List String
  | .rdbits a aPos len => [a.text, toString aPos, toString len]
  | .rdbitsInc a aPos len => [a.text, toString aPos, toString len]
  | .wrbits a aPos len value => [a.text, toString aPos, toString len, toString value]
  | .wrbitsInc a aPos len value => [a.text, toString aPos, toString len, toString value]
  | .wrflag a aPos value => [a.text, toString aPos, toString value]
  | .cpbits a aPos len b bPos => [a.text, toString aPos, toString len, b.text, toString bPos]
  | .cpbitsInc a aPos len b bPos => [a.text, toString aPos, toString len, b.text, toString bPos]
  | .rdbytesBe a aPos len => [a.text, toString aPos, toString len]
  | .rdbytesLe a aPos len => [a.text, toString aPos, toString len]
  | .wrbytesBe a aPos len value => [a.text, toString aPos, toString len, toString value]
  | .wrbytesLe a aPos len value => [a.text, toString aPos, toString len, toString value]
  | .cpbytes a aPos b bPos len => [a.text, toString aPos, b.text, toString bPos, toString len]
  | .advance aPos len => [toString aPos, toString len]

/-- A command in the notation of R71. -/
def Instr.text (i : Instr) : String := i.mnemonic ++ " " ++ ", ".intercalate i.operandTexts

/-- The name of a status (R190). -/
def Machine.Status.text : Machine.Status → String
  | .ok => "OK"
  | .invalidLength => "INVALID_LENGTH"
  | .outOfBounds => "OUT_OF_BOUNDS"
  | .illegalOp => "ILLEGAL_OP"

/-- A response in the notation of R71, `-> status, value, next_pos`. -/
def Machine.Response.text (r : Machine.Response) : String :=
  "-> " ++ ", ".intercalate [r.status.text, toString r.value.toNat, toString r.nextPos.toNat]

/-- The lowest `n` hexadecimal digits of a number, most significant first. -/
def hexDigits : Nat → Nat → List Nat
  | 0, _ => []
  | n + 1, v => hexDigits n (v / 16) ++ [v % 16]

/-- A command frame as R74 prints it: 98 hexadecimal digits, the last two of them its `op`. -/
def Frame.digits (f : Frame) : List Nat := hexDigits 98 f.toNat

/-- A response frame as R74 prints it: 34 hexadecimal digits. -/
def RspFrame.digits (r : RspFrame) : List Nat := hexDigits 34 r.toNat

end Sys2Proof
end

