-- ==== Sys2Proof/Tests/Slice0.lean ====
section
/-! SUPPORT. Tests: words and results written out from `spec/` (the section is named at each test), ill-formed terms, and a
witness for the hypotheses of every statement. -/

namespace Sys2Proof.Tests

-- one theorem at a time: a hundred kernel evaluations at once run out of threads
set_option Elab.async false

open Sys2Proof.Machine

/-! ### Well-formedness: one ill-formed term for each check -/

theorem test_wf_accepts_widest_fields :
    (Instr.cpbits ⟨2 ^ 32 - 1, 2 ^ 32 - 1⟩ (2 ^ 64 - 1) (2 ^ 64 - 1) ⟨2 ^ 32 - 1, 2 ^ 32 - 1⟩ (2 ^ 64 - 1)).wf = true := by decide
theorem test_wf_refuses_wide_base : (Instr.rdbits ⟨2 ^ 32, 1⟩ 0 1).wf = false := by decide
theorem test_wf_refuses_wide_nbytes : (Instr.rdbits ⟨0, 2 ^ 32⟩ 0 1).wf = false := by decide
theorem test_wf_refuses_wide_position : (Instr.rdbits ⟨0, 1⟩ (2 ^ 64) 1).wf = false := by decide
theorem test_wf_refuses_wide_length : (Instr.rdbits ⟨0, 1⟩ 0 (2 ^ 64)).wf = false := by decide
theorem test_wf_refuses_wide_value : (Instr.wrflag ⟨0, 1⟩ 0 (2 ^ 64)).wf = false := by decide
theorem test_wf_refuses_wide_source_position : (Instr.cpbytes ⟨0, 1⟩ 0 ⟨0, 1⟩ (2 ^ 64) 1).wf = false := by decide

/-! ### Decoding: a frame for each command, laid out as `95_test_vectors.md` section 8 prints frames (R61, R74) -/

/-- The command a frame spells, if it spells one. -/
def decoded (f : Frame) : Option Instr :=
  match decode f with
  | .ok i => some i
  | .error _ => none

-- P2 #2
theorem test_decode_rdbits :
    decoded 0x000000000000000000000000000000400000000000000000000000000000000000000000000000050000000C0000000001#392 =
      some (.rdbits ⟨0, 12⟩ 5 64) := by decide +kernel
-- P1 #8
theorem test_decode_rdbitsInc :
    decoded 0x00000000000000000000000000000004000000000000000000000000000000000000000000000004000000040000000002#392 =
      some (.rdbitsInc ⟨0, 4⟩ 4 4) := by decide +kernel
-- P4 #5
theorem test_decode_wrbits :
    decoded 0x00000000000000FF0000000000000008000000000000000000000000000000000000000000000000000000080000000403#392 =
      some (.wrbits ⟨4, 8⟩ 0 8 0xFF) := by decide +kernel
-- P1 #6
theorem test_decode_wrbitsInc :
    decoded 0x00000000000005DC0000000000000010000000000000000000000000000000000000000000000010000000040000000004#392 =
      some (.wrbitsInc ⟨0, 4⟩ 16 16 0x5DC) := by decide +kernel
-- P2 #7
theorem test_decode_wrflag :
    decoded 0x000000000000000100000000000000000000000000000000000000000000000000000000000000050000000C0000000005#392 =
      some (.wrflag ⟨0, 12⟩ 5 1) := by decide +kernel
-- the copy of P3 #1 with op 0x06
theorem test_decode_cpbits :
    decoded 0x0000000000000000000000000000006400000000000000030000001000000000000000000000000D000000100000001006#392 =
      some (.cpbits ⟨16, 16⟩ 13 100 ⟨0, 16⟩ 3) := by decide +kernel
-- P3 #6
theorem test_decode_cpbitsInc :
    decoded 0x00000000000000000000000000000019000000000000006700000010000000000000000000000071000000100000001007#392 =
      some (.cpbitsInc ⟨16, 16⟩ 113 25 ⟨0, 16⟩ 103) := by decide +kernel
-- P4 #2
theorem test_decode_rdbytesBe :
    decoded 0x00000000000000000000000000000004000000000000000000000000000000000000000000000000000000080000000008#392 =
      some (.rdbytesBe ⟨0, 8⟩ 0 4) := by decide +kernel
-- P2 #6
theorem test_decode_rdbytesLe :
    decoded 0x000000000000000000000000000000010000000000000000000000000000000000000000000000080000000C0000000009#392 =
      some (.rdbytesLe ⟨0, 12⟩ 8 1) := by decide +kernel
-- P1 #1
theorem test_decode_wrbytesBe :
    decoded 0x0000000000000000000000000000000400000000000000000000000000000000000000000000000000000004000000000A#392 =
      some (.wrbytesBe ⟨0, 4⟩ 0 4 0) := by decide +kernel
-- P4 #1
theorem test_decode_wrbytesLe :
    decoded 0x00000000A1B2C3D4000000000000000400000000000000000000000000000000000000000000000000000008000000000B#392 =
      some (.wrbytesLe ⟨0, 8⟩ 0 4 0xA1B2C3D4) := by decide +kernel
-- R98's example: CPBYTES [8:4], 1, [0:4], 2, 2
theorem test_decode_cpbytes :
    decoded 0x0000000000000000000000000000000200000000000000020000000400000000000000000000000100000004000000080C#392 =
      some (.cpbytes ⟨8, 4⟩ 1 ⟨0, 4⟩ 2 2) := by decide +kernel
-- P4 #7
theorem test_decode_advance :
    decoded 0x0000000000000000000000000000000100000000000000000000000000000000000000000000000700000000000000000D#392 =
      some (.advance 7 1) := by decide +kernel
-- P4 #6
theorem test_decode_illegal :
    decoded 0x00000000000000FF000000000000000800000000000000000000000000000000000000000000000000000008000000002A#392 =
      none := by decide +kernel
-- 95_test_vectors.md section 7: the all-zero frame
theorem test_decode_zero_frame_illegal : decoded 0#392 = none := by decide +kernel
-- R66, R62: the table's word of each row, operands zero
theorem test_table_words :
    ((List.range 15).map (decodeTableWord 8)).map (Option.map Instr.opcode) =
      none :: (List.range 13).map (fun n => some (n + 1)) ++ [none] := by decide +kernel

/-! ### Each command on small memories -/

/-- A memory with these bytes from address 0. -/
def memOf (bytes : List Nat) : Memory := memWrite [] 0 (bytes.map (BitVec.ofNat 8))

/-- What `95_test_vectors.md` prints of a command: the response and the memory after it. -/
def observe (bytes : List Nat) (i : Instr) : Option (Status × Nat × Nat × List Nat) :=
  match exec i (State.launch bytes.length (memOf bytes)) with
  | .next t => some (t.rsp.status, t.rsp.value.toNat, t.rsp.nextPos.toNat,
      (List.range bytes.length).map fun x => (t.mem.read x).toNat)
  | .fault _ => none
  | .refused _ => none

/-- `IMG` of `95_test_vectors.md`. -/
def img : List Nat := [0x01, 0x23, 0x45, 0x67, 0x89, 0xAB, 0xCD, 0xEF, 0xFE, 0xDC, 0xBA, 0x98, 0x76, 0x54, 0x32, 0x10]

-- section 1.1, the source's example
theorem test_rdbits_source_example : observe [0xB2] (.rdbits ⟨0, 1⟩ 2 4) = some (.ok, 12, 0, [0xB2]) := by decide +kernel
-- section 3.1, the source's named 9-byte case
theorem test_rdbits_nine_bytes :
    observe img (.rdbits ⟨0, 16⟩ 5 64) = some (.ok, 0x2468ACF13579BDFF, 0, img) := by decide +kernel
-- section 3.3
theorem test_rdbitsInc_advances : observe [0xB2, 0xC5] (.rdbitsInc ⟨0, 2⟩ 6 5) = some (.ok, 22, 11, [0xB2, 0xC5]) := by
  decide +kernel
-- section 7: the cursor is echoed
theorem test_rdbitsInc_echoes_cursor :
    observe img (.rdbitsInc ⟨0, 16⟩ 120 9) = some (.outOfBounds, 0, 120, img) := by decide +kernel
-- section 4.1: (5, 64) on fill FF
theorem test_wrbits_nine_bytes :
    observe (List.replicate 10 0xFF) (.wrbits ⟨0, 10⟩ 5 64 0x0123456789ABCDEF) =
      some (.ok, 0, 0, [0xF8, 0x09, 0x1A, 0x2B, 0x3C, 0x4D, 0x5E, 0x6F, 0x7F, 0xFF]) := by decide +kernel
-- R154's example
theorem test_wrbits_inside_one_byte : observe [0xB2] (.wrbits ⟨0, 1⟩ 2 4 5) = some (.ok, 0, 0, [0x96]) := by decide +kernel
-- R155's example, second command
theorem test_wrbitsInc_crosses_byte : observe [0xA0, 0] (.wrbitsInc ⟨0, 2⟩ 3 7 0x7F) = some (.ok, 0, 10, [0xBF, 0xC0]) := by
  decide +kernel
-- section 7
theorem test_wrbitsInc_zero_length : observe img (.wrbitsInc ⟨0, 16⟩ 5 0 0xFF) = some (.invalidLength, 0, 5, img) := by
  decide +kernel
-- section 4.3
theorem test_wrflag_takes_bit_zero : observe [0xFF, 0xFF] (.wrflag ⟨0, 2⟩ 9 2) = some (.ok, 0, 0, [0xFF, 0xBF]) := by
  decide +kernel
-- section 7
theorem test_wrflag_past_end : observe img (.wrflag ⟨0, 16⟩ 128 1) = some (.outOfBounds, 0, 0, img) := by decide +kernel
-- R172's example
theorem test_cpbits_misaligned :
    observe [0xB2, 0xC5, 0, 0, 0, 0, 0, 0, 0, 0] (.cpbits ⟨8, 2⟩ 3 6 ⟨0, 2⟩ 5) =
      some (.ok, 0, 0, [0xB2, 0xC5, 0, 0, 0, 0, 0, 0, 0x0B, 0]) := by decide +kernel
-- section 9: the accepted copy beside the refused one
theorem test_cpbits_overlap_refused :
    observe img (.cpbits ⟨0, 16⟩ 60 64 ⟨0, 16⟩ 0) = none ∧
      observe img (.cpbits ⟨0, 16⟩ 64 64 ⟨0, 16⟩ 0) = some (.ok, 0, 0, img.take 8 ++ img.take 8) := by decide +kernel
-- section 7
theorem test_cpbitsInc_keeps_low_bits :
    observe img (.cpbitsInc ⟨8, 8⟩ 0 59 ⟨0, 8⟩ 5) =
      some (.ok, 0, 64, img.take 8 ++ [0x24, 0x68, 0xAC, 0xF1, 0x35, 0x79, 0xBD, 0xF0]) := by decide +kernel
-- section 6: (7, 65, 1) fill 00, a 64-bit chunk then a 1-bit chunk
theorem test_cpbitsInc_two_chunks :
    observe (img ++ List.replicate 10 0) (.cpbitsInc ⟨16, 10⟩ 7 65 ⟨0, 16⟩ 1) =
      some (.ok, 0, 66, img ++ [0x00, 0x04, 0x8D, 0x15, 0x9E, 0x26, 0xAF, 0x37, 0xBF, 0x00]) := by decide +kernel
-- section 5.1
theorem test_rdbytesBe : observe img (.rdbytesBe ⟨0, 16⟩ 5 4) = some (.ok, 0xABCDEFFE, 0, img) := by decide +kernel
-- section 7
theorem test_rdbytesBe_nine_bytes : observe img (.rdbytesBe ⟨0, 16⟩ 0 9) = some (.invalidLength, 0, 0, img) := by
  decide +kernel
-- section 5.1
theorem test_rdbytesLe : observe img (.rdbytesLe ⟨0, 16⟩ 5 4) = some (.ok, 0xFEEFCDAB, 0, img) := by decide +kernel
-- section 7
theorem test_rdbytesLe_past_end : observe img (.rdbytesLe ⟨0, 16⟩ 9 8) = some (.outOfBounds, 0, 0, img) := by decide +kernel
-- section 5.2
theorem test_wrbytesBe_truncates :
    observe (List.replicate 8 0) (.wrbytesBe ⟨0, 8⟩ 1 2 0xABCDEF) = some (.ok, 0, 0, [0, 0xCD, 0xEF, 0, 0, 0, 0, 0]) := by
  decide +kernel
-- section 5.2
theorem test_wrbytesLe_truncates :
    observe (List.replicate 8 0) (.wrbytesLe ⟨0, 8⟩ 2 3 0x11223344) = some (.ok, 0, 0, [0, 0, 0x44, 0x33, 0x22, 0, 0, 0]) := by
  decide +kernel
-- section 5.4
theorem test_cpbytes :
    observe [0x12, 0x34, 0x56, 0x78, 0, 0, 0, 0, 0, 0, 0, 0] (.cpbytes ⟨8, 4⟩ 1 ⟨0, 4⟩ 2 2) =
      some (.ok, 0, 0, [0x12, 0x34, 0x56, 0x78, 0, 0, 0, 0, 0, 0x56, 0x78, 0]) := by decide +kernel
-- section 7
theorem test_cpbytes_past_end : observe img (.cpbytes ⟨8, 8⟩ 0 ⟨0, 8⟩ 0 9) = some (.outOfBounds, 0, 0, img) := by
  decide +kernel
-- section 5.4
theorem test_advance_to_last_position :
    observe [0] (.advance (2 ^ 64 - 2) 1) = some (.ok, 0, 2 ^ 64 - 1, [0]) := by decide +kernel
-- section 5.4
theorem test_advance_does_not_fit :
    observe [0] (.advance (2 ^ 64 - 1) 1) = some (.outOfBounds, 0, 2 ^ 64 - 1, [0]) := by decide +kernel

/-! ### The ports and the frames -/

/-- The state after a step, if there is one. -/
def stepped (s : State) : Option State :=
  match step s with
  | .next t => some t
  | .fault _ => none
  | .refused _ => none

-- P4 #6: an illegal opcode is answered, RSP printed as 34 digits
theorem test_step_illegal_op :
    (stepped { State.launch 8 (memOf [0x11]) with host := [.command 0x2A#392] }).map (fun t => t.rsp.frame) =
      some 0x0000000000000000000000000000000003#136 := by decide +kernel
-- P1 #9: the response of a read
theorem test_response_frame :
    Response.frame ⟨.ok, 0x2E, 14⟩ = 0x000000000000000E000000000000002E00#136 := by decide +kernel
-- R29: the first instruction after reset runs
theorem test_first_command_after_reset :
    (stepped (State.reset.withFetchWord 8 0x0D)).map (fun t => (t.rspValid, t.rsp, t.cmdReady)) =
      some (true, ⟨.ok, 0, 0⟩, false) := by decide +kernel
-- R74: the last two digits of a printed command are its op
theorem test_printed_op : ((encode (.advance 7 1)).digits.drop 96, (encode (.advance 7 1)).digits.length) = ([0, 0xD], 98) := by
  decide +kernel
-- R71
theorem test_assembly_text :
    (Instr.cpbytes ⟨8, 4⟩ 1 ⟨0, 4⟩ 2 2).text = "CPBYTES [8:4], 1, [0:4], 2, 2" := by decide +kernel

/-! ### Witnesses: states and operands that meet the hypotheses of the statements, at the edges of their ranges -/

/-- 16 bytes holding `IMG`, the unit idle. -/
def s16 : State := State.launch 16 (memOf img)

/-- `s16` with a frame on the command port. -/
def s16With (i : Instr) : State := { s16 with host := [.command (encode i)] }

/-- `s16` in flight: an `OK` response to `WRBITS [0:16], 5, 64, 0` is presented and the host resets the unit. -/
def s16InFlight : State :=
  { s16 with host := [.reset], busy := true, rspValid := true, latched := encode (.wrbits ⟨0, 16⟩ 5 64 0) }

/-- The next state of an outcome, `d` where there is none. -/
def nextOr (o : Host.Outcome State Fault Refusal) (d : State) : State :=
  match o with
  | .next t => t
  | .fault _ => d
  | .refused _ => d

theorem s16_inv : s16.Inv := ⟨by decide, by decide, by decide +kernel, by decide +kernel, rfl, fun _ => rfl, .inl rfl⟩

theorem witness_DecodeEncodeRoundTrip :
    (Instr.wrbits ⟨2 ^ 32 - 1, 2 ^ 32 - 1⟩ (2 ^ 64 - 1) (2 ^ 64 - 1) (2 ^ 64 - 1)).WellFormed := by decide +kernel
theorem witness_CanonicalEncodingClearsIgnoredBits :
    ∃ f i, decode f = .ok i ∧ encode i ≠ f := ⟨BitVec.ofNat 392 (1 + 7 <<< 328), .rdbits ⟨0, 0⟩ 0 0, rfl, by decide +kernel⟩
theorem witness_IgnoredBitsChangeNothing :
    ∃ f g : Frame, f ≠ g ∧ f &&& usedMask f.fields.op = g &&& usedMask g.fields.op := ⟨1#392, BitVec.ofNat 392 (1 + 7 <<< 328), by decide +kernel⟩
theorem witness_DecoderRejectsReservedOpcodes :
    ((Frame.fields 1#392).op = 1 ∧ (Frame.fields 13#392).op = 13) ∧ (Frame.fields 0#392).op = 0 ∧
    (Frame.fields 14#392).op = 14 ∧ (Frame.fields 255#392).op = 255 := by decide +kernel
theorem witness_StepRunsDecodedCommand :
    (s16With (.advance 7 1)).host = .command (encode (.advance 7 1)) :: [] ∧
    (s16With (.advance 7 1)).busy = false ∧ decode (encode (.advance 7 1)) = .ok (.advance 7 1) := ⟨rfl, rfl, rfl⟩
theorem witness_ReservedOpcodeAnswersIllegalOp :
    ∃ s : State, (s.host = .command 14#392 :: [] ∧ s.busy = false) ∧ (Frame.fields 14#392).op = 14 ∧
    (Frame.fields 0#392).op = 0 := ⟨{ s16 with host := [.command 14#392] }, ⟨rfl, rfl⟩, by decide +kernel⟩
theorem witness_BusyUnitOnlyGivesItsResponse :
    ∃ s : State, s.busy = true ∧ ∀ rest, s.host ≠ .reset :: rest := ⟨{ s16InFlight with host := [.command 1#392] }, rfl, by simp⟩
theorem witness_HostWritesBetweenCommands :
    ∃ s : State, s.mem.wf = true ∧ s.host = .write 15 0xAA :: [.write 16 0xAA] ∧ s.busy = false ∧
    15 < s.memBytes ∧ s.memBytes ≤ 16 := ⟨{ s16 with host := [.write 15 0xAA, .write 16 0xAA] }, by decide +kernel, rfl, rfl, by decide, by decide⟩
theorem witness_IdleUnitDoesNothing : s16.host = [] ∧ s16.busy = false := ⟨rfl, rfl⟩
theorem witness_ResetOfIdleUnitKeepsMemory :
    ∃ s : State, s.host = .reset :: [] ∧ s.busy = false := ⟨{ s16 with host := [.reset] }, rfl, rfl⟩
theorem witness_ResetInFlightAbandonsCommand :
    s16InFlight.mem.wf = true ∧ s16InFlight.host = .reset :: [] ∧ s16InFlight.busy = true ∧
    decode s16InFlight.latched = .ok (.wrbits ⟨0, 16⟩ 5 64 0) ∧ s16InFlight.rsp.status = .ok ∧
    (writeSpan (.wrbits ⟨0, 16⟩ 5 64 0)).Mem 8 ∧ ¬(writeSpan (.wrbits ⟨0, 16⟩ 5 64 0)).Mem 9 := ⟨by decide +kernel, rfl, rfl, rfl, rfl, by decide +kernel, by decide +kernel⟩
theorem witness_CanonicalListsAreMemoryContents : s16.mem.wf = true ∧ s16.mem.within 16 = true := by decide +kernel
theorem witness_LaunchMeetsInvariant :
    (memOf img).wf = true ∧ (memOf img).within 16 = true ∧ 1 ≤ 16 ∧ 16 ≤ Config.maxMemBytes ∧
    Memory.within 1 [] = true ∧ Config.maxMemBytes = 2 ^ 31 := by decide +kernel
theorem witness_StepKeepsInvariant : ∃ s t : State, s.Inv ∧ step s = .next t := ⟨s16, s16, s16_inv, rfl⟩
theorem witness_StepKeepsInvariant_command :
    ∃ s t : State, s.Inv ∧ step s = .next t ∧ t.busy = true := ⟨s16With (.advance 7 1), nextOr (step (s16With (.advance 7 1))) s16,
    ⟨by decide, by decide, by decide +kernel, by decide +kernel, rfl, fun _ => rfl, .inl rfl⟩, rfl, by decide +kernel⟩
theorem witness_BigEndianWriteStoresTruncatedValue :
    s16.mem.wf = true ∧ ¬(byteSpan ⟨0, 0⟩ 1 2).Mem 0 ∧ ¬(byteSpan ⟨0, 0⟩ 1 2).Mem 3 := by decide +kernel
theorem witness_LittleEndianWriteStoresTruncatedValue :
    s16.mem.wf = true ∧ (byteSpan ⟨0, 0⟩ 1 2).Mem 1 ∧ (byteSpan ⟨0, 0⟩ 1 2).Mem 2 := by decide +kernel
theorem witness_ByteOrderLaws : s16.mem.wf = true ∧ 1 ≤ 8 ∧ 8 ≤ 8 := by decide +kernel
theorem witness_RdbytesBeReadsBigEndian_errors :
    (0 = 0 ∨ 8 < 0) ∧ (9 = 0 ∨ 8 < 9) ∧ (1 ≤ 8 ∧ 8 ≤ 8 ∧ (s16.memBytes < 0 + 17 ∨ 17 < 0 + 8)) ∧
    1 ≤ 1 ∧ 1 ≤ 8 ∧ (s16.memBytes < 0 + 16 ∨ 16 < 16 + 1) := by decide +kernel
theorem witness_RdbytesBeReadsBigEndian : 1 ≤ 8 ∧ 8 ≤ 8 ∧ 0 + 16 ≤ s16.memBytes ∧ 8 + 8 ≤ 16 := by decide +kernel
theorem witness_RdbytesLeReadsLittleEndian_errors :
    (0 = 0 ∨ 8 < 0) ∧ (9 = 0 ∨ 8 < 9) ∧ (1 ≤ 8 ∧ 8 ≤ 8 ∧ (s16.memBytes < 0 + 17 ∨ 17 < 0 + 8)) ∧
    1 ≤ 1 ∧ 1 ≤ 8 ∧ (s16.memBytes < 0 + 16 ∨ 16 < 16 + 1) := by decide +kernel
theorem witness_RdbytesLeReadsLittleEndian : 1 ≤ 8 ∧ 8 ≤ 8 ∧ 0 + 16 ≤ s16.memBytes ∧ 8 + 8 ≤ 16 := by decide +kernel
theorem witness_WrbytesBeWritesBigEndian_errors :
    (0 = 0 ∨ 8 < 0) ∧ (9 = 0 ∨ 8 < 9) ∧ (1 ≤ 8 ∧ 8 ≤ 8 ∧ (s16.memBytes < 9 + 8 ∨ 8 < 0 + 8)) ∧
    1 ≤ 1 ∧ 1 ≤ 8 ∧ (s16.memBytes < 0 + 16 ∨ 16 < 16 + 1) := by decide +kernel
theorem witness_WrbytesBeWritesBigEndian :
    s16.mem.wf = true ∧ 1 ≤ 8 ∧ 8 ≤ 8 ∧ 0 + 16 ≤ s16.memBytes ∧ 8 + 8 ≤ 16 := by decide +kernel
theorem witness_WrbytesLeWritesLittleEndian_errors :
    (0 = 0 ∨ 8 < 0) ∧ (9 = 0 ∨ 8 < 9) ∧ (1 ≤ 8 ∧ 8 ≤ 8 ∧ (s16.memBytes < 9 + 8 ∨ 8 < 0 + 8)) ∧
    1 ≤ 1 ∧ 1 ≤ 8 ∧ (s16.memBytes < 0 + 16 ∨ 16 < 16 + 1) := by decide +kernel
theorem witness_WrbytesLeWritesLittleEndian :
    s16.mem.wf = true ∧ 1 ≤ 8 ∧ 8 ≤ 8 ∧ 0 + 16 ≤ s16.memBytes ∧ 8 + 8 ≤ 16 := by decide +kernel
theorem witness_CpbytesCopiesBytes_errors :
    (Instr.cpbytes ⟨8, 8⟩ 0 ⟨0, 8⟩ 0 0).WellFormed ∧ (Instr.cpbytes ⟨8, 8⟩ 0 ⟨0, 8⟩ 0 9).WellFormed ∧
    1 ≤ 9 ∧ (s16.memBytes < 8 + 8 ∨ s16.memBytes < 0 + 8 ∨ 8 < 0 + 9 ∨ 8 < 0 + 9) := by decide +kernel
theorem witness_CpbytesCopiesBytes :
    s16.mem.wf = true ∧ (Instr.cpbytes ⟨0, 16⟩ 8 ⟨0, 16⟩ 0 8).WellFormed ∧ 1 ≤ 8 ∧ 0 + 16 ≤ s16.memBytes ∧ 8 + 8 ≤ 16 ∧
    0 + 8 ≤ 16 ∧ ∀ x, (byteSpan ⟨0, 16⟩ 8 8).Mem x → ¬(byteSpan ⟨0, 16⟩ 0 8).Mem x := 
  ⟨by decide +kernel, by decide, by decide, by decide, by decide, by decide, fun x h h' => by
    simp only [byteSpan, Span.Mem] at h h'; omega⟩
theorem witness_AdvanceAddsPositions :
    (Instr.advance (2 ^ 64 - 1) 1).WellFormed ∧ 2 ^ 64 ≤ 2 ^ 64 - 1 + 1 ∧ (Instr.advance (2 ^ 64 - 1) 0).WellFormed ∧
    2 ^ 64 - 1 + 0 < 2 ^ 64 := by decide +kernel
theorem witness_InvolvedByteCountRange :
    1 ≤ 64 ∧ 64 ≤ 64 ∧ involvedBytes 1 64 = 9 ∧ 9 < involvedBytes 7 66 := by decide +kernel
theorem witness_NineByteSplitIsWellFormed :
    1 ≤ 58 ∧ 58 ≤ 64 ∧ involvedBytes 7 58 = 9 ∧ involvedBytes 1 64 = 9 := by decide +kernel
theorem witness_FieldFitsItsContainer : (1 ≤ 1 ∧ 0 < 1) ∧ 1 ≤ 64 ∧ 0 < 64 ∧ 63 < 64 := by decide +kernel
theorem witness_ReadBitsIsFieldValue : 1 ≤ 1 ∧ 1 ≤ 64 ∧ 1 ≤ 64 ∧ 64 ≤ 64 := by decide +kernel
theorem witness_RdbitsReadsField_errors :
    (0 = 0 ∨ 64 < 0) ∧ (65 = 0 ∨ 64 < 65) ∧
    (1 ≤ 64 ∧ 64 ≤ 64 ∧ (s16.memBytes < 0 + 16 ∨ 8 * 16 < 65 + 64)) ∧ 1 ≤ 1 ∧ 1 ≤ 64 ∧ (s16.memBytes < 0 + 17 ∨ 8 * 17 < 0 + 1) := by decide +kernel
theorem witness_RdbitsReadsField : 1 ≤ 64 ∧ 64 ≤ 64 ∧ 0 + 16 ≤ s16.memBytes ∧ 64 + 64 ≤ 8 * 16 := by decide +kernel
theorem witness_RdbitsIncReadsFieldAndAdvances_errors :
    ((Instr.rdbitsInc ⟨0, 16⟩ 5 0).WellFormed ∧ (Instr.rdbitsInc ⟨0, 16⟩ 5 65).WellFormed ∧
    (Instr.rdbitsInc ⟨0, 16⟩ 65 64).WellFormed) ∧ (0 = 0 ∨ 64 < 0) ∧ (65 = 0 ∨ 64 < 65) ∧
    (1 ≤ 64 ∧ 64 ≤ 64 ∧ (s16.memBytes < 0 + 16 ∨ 8 * 16 < 65 + 64)) ∧ 1 ≤ 1 ∧ 1 ≤ 64 ∧ (s16.memBytes < 0 + 17 ∨ 8 * 17 < 0 + 1) := by decide +kernel
theorem witness_RdbitsIncReadsFieldAndAdvances :
    (Instr.rdbitsInc ⟨0, 16⟩ 64 64).WellFormed ∧ 1 ≤ 64 ∧ 64 ≤ 64 ∧ 0 + 16 ≤ s16.memBytes ∧ 64 + 64 ≤ 8 * 16 := by decide +kernel
theorem witness_CursorChainEqualsDirectReads :
    (Buffer.mk 0 16).wf = true ∧ 0 + 16 ≤ s16.memBytes ∧ (∀ len ∈ [4, 60, 64], 1 ≤ len ∧ len ≤ 64) ∧
    0 + [4, 60, 64].sum ≤ 8 * 16 := by decide +kernel
theorem witness_PointerCursorEqualsPosition : 1 ≤ 64 := by decide +kernel
theorem witness_ResponseDependsOnReadFootprint :
    ∃ s s' t t' : State, s.memBytes = s'.memBytes ∧ s ≠ s' ∧
      (∀ x, (readSpan (.rdbits ⟨0, 16⟩ 0 8)).Mem x → s.mem.read x = s'.mem.read x) ∧
      exec (.rdbits ⟨0, 16⟩ 0 8) s = .next t ∧ exec (.rdbits ⟨0, 16⟩ 0 8) s' = .next t' := 
  ⟨s16, { s16 with mem := s16.mem.write 1 0 }, nextOr (exec (.rdbits ⟨0, 16⟩ 0 8) s16) s16,
    nextOr (exec (.rdbits ⟨0, 16⟩ 0 8) { s16 with mem := s16.mem.write 1 0 }) s16, rfl, by decide +kernel,
    fun x hx => by
      have h0 : addr 0 = 0 := by decide
      have h1 : involvedBytes 0 8 = 1 := by decide
      simp only [readSpan, bitSpan, Span.Mem, h0, h1] at hx
      obtain rfl : x = 0 := by omega
      decide +kernel,
    rfl, rfl⟩
theorem witness_WriteBitsSetsExactlyTheField : s16.mem.wf = true ∧ 1 ≤ 64 ∧ 64 ≤ 64 := by decide +kernel
theorem witness_FixedWriteIsContainerUpdate : s16.mem.wf = true ∧ 1 ≤ 57 ∧ involvedBytes 7 57 ≤ 8 := by decide +kernel
theorem witness_WrbitsWritesField_errors :
    (0 = 0 ∨ 64 < 0) ∧ (65 = 0 ∨ 64 < 65) ∧
    (1 ≤ 64 ∧ 64 ≤ 64 ∧ (s16.memBytes < 0 + 16 ∨ 8 * 16 < 65 + 64)) ∧ 1 ≤ 1 ∧ 1 ≤ 64 ∧ (s16.memBytes < 0 + 17 ∨ 8 * 17 < 0 + 1) := by decide +kernel
theorem witness_WrbitsWritesField :
    s16.mem.wf = true ∧ 1 ≤ 64 ∧ 64 ≤ 64 ∧ 0 + 16 ≤ s16.memBytes ∧ 64 + 64 ≤ 8 * 16 := by decide +kernel
theorem witness_WrbitsIncWritesFieldAndAdvances_errors :
    ((Instr.wrbitsInc ⟨0, 16⟩ 5 0 1).WellFormed ∧ (Instr.wrbitsInc ⟨0, 16⟩ 5 65 1).WellFormed ∧
    (Instr.wrbitsInc ⟨0, 16⟩ 65 64 1).WellFormed) ∧ (0 = 0 ∨ 64 < 0) ∧ (65 = 0 ∨ 64 < 65) ∧
    (1 ≤ 64 ∧ 64 ≤ 64 ∧ (s16.memBytes < 0 + 16 ∨ 8 * 16 < 65 + 64)) ∧ 1 ≤ 1 ∧ 1 ≤ 64 ∧ (s16.memBytes < 0 + 17 ∨ 8 * 17 < 0 + 1) := by decide +kernel
theorem witness_WrbitsIncWritesFieldAndAdvances :
    s16.mem.wf = true ∧ (Instr.wrbitsInc ⟨0, 16⟩ 64 64 1).WellFormed ∧ 1 ≤ 64 ∧ 64 ≤ 64 ∧ 0 + 16 ≤ s16.memBytes ∧ 64 + 64 ≤ 8 * 16 := by decide +kernel
theorem witness_WrflagWritesOneBit :
    (s16.memBytes < 0 + 16 ∨ 8 * 16 < 128 + 1) ∧ (s16.memBytes < 0 + 17 ∨ 8 * 17 < 0 + 1) ∧ s16.mem.wf = true ∧
    0 + 16 ≤ s16.memBytes ∧ 127 + 1 ≤ 8 * 16 := by decide +kernel
theorem witness_FieldReadsBackAsWritten :
    ∃ t u : State, s16.mem.wf = true ∧ exec (.wrbits ⟨0, 16⟩ 5 64 7) s16 = .next t ∧ t.rsp.status = .ok ∧
      exec (.wrbits ⟨0, 16⟩ 0 5 3) t = .next u ∧ u.rsp.status = .ok ∧ (0 + 5 ≤ 5 ∨ 5 + 64 ≤ 0) := 
  ⟨nextOr (exec (.wrbits ⟨0, 16⟩ 5 64 7) s16) s16,
    nextOr (exec (.wrbits ⟨0, 16⟩ 0 5 3) (nextOr (exec (.wrbits ⟨0, 16⟩ 5 64 7) s16) s16)) s16,
    by decide +kernel, rfl, by decide +kernel, rfl, by decide +kernel, by decide⟩
theorem witness_FieldReadsBackAsWritten_whole_buffer :
    ∃ t : State, s16.mem.wf = true ∧ exec (.wrbits ⟨0, 8⟩ 0 64 7) s16 = .next t ∧ t.rsp.status = .ok :=
  ⟨nextOr (exec (.wrbits ⟨0, 8⟩ 0 64 7) s16) s16, by decide +kernel, rfl, by decide +kernel⟩
theorem witness_BitFieldSeenThroughByteRead :
    s16.mem.wf = true ∧ 1 ≤ 64 ∧ 64 ≤ 64 ∧ involvedBytes 0 64 ≤ 8 := by decide +kernel
theorem witness_CpbitsCopiesBits_errors :
    (Instr.cpbits ⟨8, 8⟩ 0 0 ⟨0, 8⟩ 5).WellFormed ∧ (Instr.cpbits ⟨8, 8⟩ 0 60 ⟨0, 8⟩ 5).WellFormed ∧
    1 ≤ 60 ∧ (s16.memBytes < 8 + 8 ∨ s16.memBytes < 0 + 8 ∨ 8 * 8 < 0 + 60 ∨ 8 * 8 < 5 + 60) := by decide +kernel
theorem witness_CpbitsCopiesBits :
    s16.mem.wf = true ∧ (Instr.cpbits ⟨0, 16⟩ 64 64 ⟨0, 16⟩ 0).WellFormed ∧ 1 ≤ 64 ∧ 0 + 16 ≤ s16.memBytes ∧
    64 + 64 ≤ 8 * 16 ∧ 0 + 64 ≤ 8 * 16 ∧ ∀ x, (bitSpan ⟨0, 16⟩ 64 64).Mem x → ¬(bitSpan ⟨0, 16⟩ 0 64).Mem x := 
  ⟨by decide +kernel, by decide, by decide, by decide, by decide, by decide, fun x h h' => by
    simp only [bitSpan, Span.Mem] at h h'
    have h1 : addr 64 = 8 := by decide
    have h2 : addr 0 = 0 := by decide
    have h3 : involvedBytes 0 64 = 8 := by decide
    omega⟩
theorem witness_CpbitsIncCopiesBitsAndAdvancesSource_errors :
    (Instr.cpbitsInc ⟨8, 8⟩ 0 0 ⟨0, 8⟩ 5).WellFormed ∧ (Instr.cpbitsInc ⟨8, 8⟩ 0 60 ⟨0, 8⟩ 5).WellFormed ∧
    1 ≤ 60 ∧ (s16.memBytes < 8 + 8 ∨ s16.memBytes < 0 + 8 ∨ 8 * 8 < 0 + 60 ∨ 8 * 8 < 5 + 60) := by decide +kernel
theorem witness_CpbitsIncCopiesBitsAndAdvancesSource :
    s16.mem.wf = true ∧ (Instr.cpbitsInc ⟨0, 16⟩ 64 64 ⟨0, 16⟩ 0).WellFormed ∧ 1 ≤ 64 ∧ 0 + 16 ≤ s16.memBytes ∧
    64 + 64 ≤ 8 * 16 ∧ 0 + 64 ≤ 8 * 16 ∧ ∀ x, (bitSpan ⟨0, 16⟩ 64 64).Mem x → ¬(bitSpan ⟨0, 16⟩ 0 64).Mem x := 
  ⟨by decide +kernel, by decide, by decide, by decide, by decide, by decide, fun x h h' => by
    simp only [bitSpan, Span.Mem] at h h'
    have h1 : addr 64 = 8 := by decide
    have h2 : addr 0 = 0 := by decide
    have h3 : involvedBytes 0 64 = 8 := by decide
    omega⟩
theorem witness_RefusalsAreOverlappingCopies :
    (Instr.cpbits ⟨0, 16⟩ 60 64 ⟨0, 16⟩ 0).WellFormed ∧ exec (.cpbits ⟨0, 16⟩ 60 64 ⟨0, 16⟩ 0) s16 = .refused .overlappingCopy ∧
    expectedStatus 16 (.cpbits ⟨0, 16⟩ 60 64 ⟨0, 16⟩ 0) = .ok ∧
    (readSpan (.cpbits ⟨0, 16⟩ 60 64 ⟨0, 16⟩ 0)).Mem 7 ∧ (writeSpan (.cpbits ⟨0, 16⟩ 60 64 ⟨0, 16⟩ 0)).Mem 7 :=
  ⟨by decide, rfl, by decide +kernel, by decide +kernel, by decide +kernel⟩
theorem witness_RefusalsAreOverlappingCopies_bytes :
    (Instr.cpbytes ⟨0, 16⟩ 7 ⟨0, 16⟩ 0 8).WellFormed ∧
    exec (.cpbytes ⟨0, 16⟩ 7 ⟨0, 16⟩ 0 8) s16 = .refused .overlappingCopy := ⟨by decide, rfl⟩
theorem witness_CopyEndsAfterItsChunks : 2 ^ 64 - 1 < 2 ^ 64 := by decide +kernel
theorem witness_StatusFollowsPriority :
    (s16With (.rdbits ⟨0, 1⟩ 100 0)).host = .command (encode (.rdbits ⟨0, 1⟩ 100 0)) :: [] ∧
    decode (encode (.rdbits ⟨0, 1⟩ 100 0)) = .ok (.rdbits ⟨0, 1⟩ 100 0) ∧ decode 255#392 = .error (.illegalOp 255) ∧
    ¬(expectedStatus 16 (.rdbits ⟨0, 1⟩ 100 0) = .ok ∧ copyOverlaps (.rdbits ⟨0, 1⟩ 100 0) = true) := ⟨rfl, rfl, rfl, by decide +kernel⟩
theorem witness_ErrorsLeaveNoTrace :
    ∃ t : State, step (s16With (.rdbitsInc ⟨0, 16⟩ 120 9)) = .next t ∧ t.rsp.status ≠ .ok := ⟨nextOr (step (s16With (.rdbitsInc ⟨0, 16⟩ 120 9))) s16, rfl, by decide +kernel⟩
theorem witness_ErrorsLeaveNoTrace_illegal :
    ∃ t : State, step { s16 with host := [.command 255#392] } = .next t ∧ t.rsp.status ≠ .ok := ⟨nextOr (step { s16 with host := [.command 255#392] }) s16, rfl, by decide +kernel⟩
theorem witness_OkResponsesCarryNextPosition :
    ∃ t : State, (Instr.wrbitsInc ⟨0, 16⟩ 120 8 1).WellFormed ∧ exec (.wrbitsInc ⟨0, 16⟩ 120 8 1) s16 = .next t ∧
      t.rsp.status = .ok ∧ isRead (.wrbitsInc ⟨0, 16⟩ 120 8 1) = false := 
  ⟨nextOr (exec (.wrbitsInc ⟨0, 16⟩ 120 8 1) s16) s16, by decide, rfl, by decide +kernel, rfl⟩
theorem witness_WritesStayInFootprint :
    ∃ t : State, (Instr.wrflag ⟨0, 16⟩ 8 1).WellFormed ∧ s16.mem.wf = true ∧ exec (.wrflag ⟨0, 16⟩ 8 1) s16 = .next t ∧
      ¬(writeSpan (.wrflag ⟨0, 16⟩ 8 1)).Mem 0 ∧ ¬(writeSpan (.wrflag ⟨0, 16⟩ 8 1)).Mem 2 ∧ (writeSpan (.advance 1 1)).size = 0 := 
  ⟨nextOr (exec (.wrflag ⟨0, 16⟩ 8 1) s16) s16, by decide, by decide +kernel, rfl, by decide +kernel, by decide +kernel, rfl⟩
theorem witness_CommandsChangeNothingElse :
    ∃ t : State, exec (.wrbytesBe ⟨0, 16⟩ 1 2 5) s16 = .next t ∧
      ∀ a aPos len b bPos, (Instr.wrbytesBe ⟨0, 16⟩ 1 2 5) ≠ .cpbits a aPos len b bPos ∧
        (Instr.wrbytesBe ⟨0, 16⟩ 1 2 5) ≠ .cpbitsInc a aPos len b bPos := 
  ⟨nextOr (exec (.wrbytesBe ⟨0, 16⟩ 1 2 5) s16) s16, rfl, by simp⟩
theorem witness_EqualCommandsOnEqualMemories :
    ∃ s s' t : State, s ≠ s' ∧ s.memBytes = s'.memBytes ∧ s.mem = s'.mem ∧
      exec (.cpbits ⟨8, 8⟩ 0 64 ⟨0, 8⟩ 0) s = .next t ∧ exec (.cpbits ⟨8, 8⟩ 0 64 ⟨8, 8⟩ 0) s = .refused .overlappingCopy := 
  ⟨s16, { s16 with rem := 5, srcCur := 6, dstCur := 7, chunk := 8 },
    nextOr (exec (.cpbits ⟨8, 8⟩ 0 64 ⟨0, 8⟩ 0) s16) s16, by decide +kernel, rfl, rfl, rfl, rfl⟩
theorem witness_RepeatedErrorIsTheSame :
    ∃ t : State, exec (.wrbits ⟨0, 16⟩ 125 4 15) s16 = .next t ∧ t.rsp.status ≠ .ok := ⟨nextOr (exec (.wrbits ⟨0, 16⟩ 125 4 15) s16) s16, rfl, by decide +kernel⟩

end Sys2Proof.Tests
end

/-! PROOF. The obligations of `10_state.md`: O14, O15, O35, O52 and O53, with the lemmas they rest on. -/

/-! ### Canonical memory lists (R27, R40) -/

namespace Sys2Proof.Machine.Memory

@[simp] theorem read_cons_same (x : Nat) (v : Byte) (m : Memory) : read ((x, v) :: m) x = v := if_pos rfl

theorem read_cons_of_ne {x y : Nat} (h : y ≠ x) (v : Byte) (m : Memory) : read ((x, v) :: m) y = read m y := if_neg h

/-- An address that does not exist is not listed. -/
theorem read_of_within {n : Nat} {m : Memory} (h : m.within n = true) {x : Nat} (hx : n ≤ x) :
    read m x = Config.unlistedByte := by
  induction m with
  | nil => rfl
  | cons c m ih =>
    simp only [within, List.all_cons, Bool.and_eq_true, decide_eq_true_eq] at h
    rw [read_cons_of_ne (by omega)]
    exact ih h.2

/-- Every content of the first `n` addresses has a canonical list: the bytes written one by one into empty memory. -/
theorem exists_wf_within_read (n : Nat) (content : Nat → Byte) :
    ∃ m : Memory, m.wf = true ∧ m.within n = true ∧ ∀ x, x < n → m.read x = content x := by
  induction n with
  | zero => exact ⟨[], rfl, rfl, fun x hx => absurd hx (Nat.not_lt_zero x)⟩
  | succ n ih =>
    obtain ⟨m, hwf, hin, hread⟩ := ih
    have hin' : m.within (n + 1) = true := by
      simp only [within, List.all_eq_true, decide_eq_true_eq] at hin ⊢
      exact fun c hc => Nat.lt_succ_of_lt (hin c hc)
    refine ⟨m.write n (content n), wf_write hwf .., within_write hin' n.lt_succ_self _, fun x hx => ?_⟩
    rw [read_write hwf]
    split
    · subst x; rfl
    · exact hread x (by omega)

/-- The first address a canonical list holds is no later than an address that does not read as unlisted. -/
theorem head_le_of_read_ne {lo x a : Nat} {v : Byte} {m : Memory} (h : wfFrom lo ((x, v) :: m) = true)
    (ha : read ((x, v) :: m) a ≠ Config.unlistedByte) : x ≤ a := by
  by_contra hlt
  rw [wfFrom_cons] at h
  exact ha (read_of_lt (wfFrom_cons.mpr ⟨le_rfl, h.2⟩) (not_le.mp hlt))

/-- The tails of two canonical lists that start at one address and read alike read alike. -/
theorem read_tail_eq {x : Nat} {v w : Byte} {m m' : Memory} (h : wfFrom (x + 1) m = true)
    (h' : wfFrom (x + 1) m' = true) (heq : ∀ a, read ((x, v) :: m) a = read ((x, w) :: m') a) (a : Nat) :
    read m a = read m' a := by
  by_cases ha : a = x
  · rw [read_of_lt h (by omega), read_of_lt h' (by omega)]
  · simpa only [read_cons_of_ne ha] using heq a

/-- Canonical lists are extensional: two that read alike everywhere are one list. -/
theorem wfFrom_ext {lo lo' : Nat} {m m' : Memory} (h : wfFrom lo m = true) (h' : wfFrom lo' m' = true)
    (heq : ∀ a, read m a = read m' a) : m = m' := by
  induction m generalizing lo lo' m' with
  | nil =>
    cases m' with
    | nil => rfl
    | cons c' m' =>
      obtain ⟨y, w⟩ := c'
      exact absurd ((read_cons_same y w m').symm.trans (heq y).symm) (wfFrom_cons.mp h').2.1
  | cons c m ih =>
    obtain ⟨x, v⟩ := c
    obtain ⟨-, hv, hm⟩ := wfFrom_cons.mp h
    cases m' with
    | nil => exact absurd ((read_cons_same x v m).symm.trans (heq x)) hv
    | cons c' m' =>
      obtain ⟨y, w⟩ := c'
      obtain ⟨-, hw, hm'⟩ := wfFrom_cons.mp h'
      have hyx : y ≤ x := head_le_of_read_ne h' (by rw [← heq, read_cons_same]; exact hv)
      have hxy : x ≤ y := head_le_of_read_ne h (by rw [heq, read_cons_same]; exact hw)
      obtain rfl := hxy.antisymm hyx
      obtain rfl : v = w := by simpa using heq x
      rw [ih hm hm' (read_tail_eq hm hm' heq)]

/-- Settles O14: a content is written byte by byte, and canonical lists are extensional. -/
theorem canonicalListsAreMemoryContents : Obligations.CanonicalListsAreMemoryContents := by
  unfold Obligations.CanonicalListsAreMemoryContents
  refine ⟨exists_wf_within_read, fun n m m' hwf hwf' hin hin' heq => wfFrom_ext hwf hwf' fun x => ?_⟩
  by_cases hx : x < n
  · exact heq x hx
  · rw [read_of_within hin (not_lt.mp hx), read_of_within hin' (not_lt.mp hx)]

end Sys2Proof.Machine.Memory

namespace Sys2Proof.Machine

/-! ### Launch (R29, R30) -/

/-- An idle unit has no command for a reset to abandon (R222). -/
@[simp] theorem abandonedSpan_of_idle {s : State} (h : s.busy = false) : s.abandonedSpan = ⟨0, 0⟩ := by
  simp [State.abandonedSpan, h]

theorem launch_inv {n : Nat} {image : Memory} (hpos : 1 ≤ n) (hle : n ≤ Config.maxMemBytes)
    (hwf : image.wf = true) (hin : image.within n = true) : (State.launch n image).Inv where
  memBytes_pos := hpos
  memBytes_le := hle
  mem_wf := hwf
  mem_within := hin
  rspValid_eq := rfl
  error_value := fun h => absurd (by rw [launch_rsp]) h
  abandoned_within := .inl (by rw [abandonedSpan_of_idle (launch_busy n image)])

/-- Settles O15. -/
theorem launchMeetsInvariant : Obligations.LaunchMeetsInvariant := by
  unfold Obligations.LaunchMeetsInvariant
  exact ⟨fun _ _ => launch_inv, launch_inv (by decide) le_rfl rfl rfl⟩

/-! ### Whole bytes moved from the position to the base (R25, R110, R111) -/

theorem eight_mul_addr_add_offset (pos : Nat) : 8 * addr pos + offset pos = pos := by
  rw [addr_eq, offset_eq]; omega

theorem addr_add_bytes (q bit : Nat) : addr (8 * q + bit) = q + addr bit := by
  rw [addr_eq, addr_eq]; omega

theorem offset_add_bytes (q bit : Nat) : offset (8 * q + bit) = offset bit := by
  rw [offset_eq, offset_eq]; omega

theorem involvedBytes_add_bytes (q bit len : Nat) : involvedBytes (8 * q + bit) len = involvedBytes bit len := by
  rw [involvedBytes, involvedBytes, offset_add_bytes]

theorem bitsInLastByte_add_bytes (q bit len : Nat) : bitsInLastByte (8 * q + bit) len = bitsInLastByte bit len := by
  simp only [bitsInLastByte, Nat.add_assoc, offset_add_bytes]

theorem shiftAmount_add_bytes (q bit len : Nat) : shiftAmount (8 * q + bit) len = shiftAmount bit len := by
  simp only [shiftAmount, Nat.add_assoc, offset_add_bytes]

theorem readFixed_add_bytes (m : Memory) (base q bit len : Nat) :
    readFixed m base (8 * q + bit) len = readFixed m (base + q) bit len := by
  simp only [readFixed, readBytesBe, addr_add_bytes, involvedBytes_add_bytes, shiftAmount_add_bytes, Nat.add_assoc]

theorem readBits_add_bytes (m : Memory) (base q bit len : Nat) :
    readBits m base (8 * q + bit) len = readBits m (base + q) bit len := by
  have hsplit : readSplit9 m base (8 * q + bit) len = readSplit9 m (base + q) bit len := by
    simp only [readSplit9, bitsInLastByte_add_bytes, Nat.add_assoc (8 * q), readFixed_add_bytes]
  simp only [readBits, involvedBytes_add_bytes, readFixed_add_bytes, hsplit]

theorem writeFixed_add_bytes (m : Memory) (base q bit len value : Nat) :
    writeFixed m base (8 * q + bit) len value = writeFixed m (base + q) bit len value := by
  simp only [writeFixed, addr_add_bytes, involvedBytes_add_bytes, shiftAmount_add_bytes, Nat.add_assoc]

theorem writeBits_add_bytes (m : Memory) (base q bit len value : Nat) :
    writeBits m base (8 * q + bit) len value = writeBits m (base + q) bit len value := by
  have hsplit : writeSplit9 m base (8 * q + bit) len value = writeSplit9 m (base + q) bit len value := by
    simp only [writeSplit9, bitsInLastByte_add_bytes, Nat.add_assoc (8 * q), writeFixed_add_bytes]
  simp only [writeBits, involvedBytes_add_bytes, writeFixed_add_bytes, hsplit]

/-- Settles O35: a position is `8 * addr + offset`, and the engines read whole bytes of a position as part of the base. -/
theorem pointerCursorEqualsPosition : Obligations.PointerCursorEqualsPosition := by
  unfold Obligations.PointerCursorEqualsPosition
  intro m base pos len value _
  rw [← readBits_add_bytes, ← writeBits_add_bytes, eight_mul_addr_add_offset]
  exact ⟨rfl, rfl⟩

/-! ### Every command in one form: check, refuse an overlapping copy, else work and respond -/

/-- The checks a command runs, over the fields it uses (R99, R100, R136, R174). -/
def commandCheck (memBytes : Nat) : Instr → Option Error
  | .rdbits a aPos len => checkBits memBytes a aPos len
  | .rdbitsInc a aPos len => checkBits memBytes a aPos len
  | .wrbits a aPos len _ => checkBits memBytes a aPos len
  | .wrbitsInc a aPos len _ => checkBits memBytes a aPos len
  | .wrflag a aPos _ => checkBits memBytes a aPos 1
  | .cpbits a aPos len b bPos => checkCopy memBytes a aPos b bPos len
  | .cpbitsInc a aPos len b bPos => checkCopy memBytes a aPos b bPos len
  | .rdbytesBe a aPos len => checkBytes memBytes a aPos len 1 Config.maxN
  | .rdbytesLe a aPos len => checkBytes memBytes a aPos len 1 Config.maxN
  | .wrbytesBe a aPos len _ => checkBytes memBytes a aPos len 1 Config.maxN
  | .wrbytesLe a aPos len _ => checkBytes memBytes a aPos len 1 Config.maxN
  | .cpbytes a aPos b bPos len => checkCopyBytes memBytes a aPos b bPos len
  | .advance aPos len => checkAdvance aPos len

/-- The state a command that passes its checks leaves, its response not yet presented. -/
def commandWork (i : Instr) (s : State) : State :=
  match i with
  | .wrbits a aPos len value => { s with mem := writeBits s.mem a.base aPos len value }
  | .wrbitsInc a aPos len value => { s with mem := writeBits s.mem a.base aPos len value }
  | .wrflag a aPos value => { s with mem := writeBits s.mem a.base aPos 1 (value &&& 1) }
  | .cpbits a aPos len b bPos => s.copyBits a.base aPos len b.base bPos
  | .cpbitsInc a aPos len b bPos => s.copyBits a.base aPos len b.base bPos
  | .wrbytesBe a aPos len value => { s with mem := writeBytesBe s.mem a.base aPos len value }
  | .wrbytesLe a aPos len value => { s with mem := writeBytesLe s.mem a.base aPos len value }
  | .cpbytes a aPos b bPos len =>
    { s with mem := memWrite s.mem (a.base + aPos) (memRead s.mem (b.base + bPos) len) }
  | .rdbits _ _ _ | .rdbitsInc _ _ _ | .rdbytesBe _ _ _ | .rdbytesLe _ _ _ | .advance _ _ => s

/-- The value an `OK` response carries: what a read command reads, 0 for every other (R64). -/
def commandValue (i : Instr) (m : Memory) : Nat :=
  match i with
  | .rdbits a aPos len => readBits m a.base aPos len
  | .rdbitsInc a aPos len => readBits m a.base aPos len
  | .rdbytesBe a aPos len => readBytesBe m a.base aPos len
  | .rdbytesLe a aPos len => readBytesLe m a.base aPos len
  | .wrbits _ _ _ _ | .wrbitsInc _ _ _ _ | .wrflag _ _ _ | .cpbits _ _ _ _ _ | .cpbitsInc _ _ _ _ _
  | .wrbytesBe _ _ _ _ | .wrbytesLe _ _ _ _ | .cpbytes _ _ _ _ _ | .advance _ _ => 0

/-- The one shape all 13 meanings have. -/
theorem exec_eq_guarded (i : Instr) (s : State) :
    exec i s = guarded (commandCheck s.memBytes i) (echoPos i) s fun s =>
      if copyOverlaps i then .refused .overlappingCopy
      else .next ((commandWork i s).respond .ok (commandValue i s.mem) (okNextPos i)) := by
  cases i <;> rfl

/-- The three answers of a command, as the check and the overlap decide them. -/
theorem exec_cases (i : Instr) (s : State) :
    (∃ e, commandCheck s.memBytes i = some e ∧ exec i s = .next (s.raise e (echoPos i))) ∨
    (commandCheck s.memBytes i = none ∧ copyOverlaps i = true ∧ exec i s = .refused .overlappingCopy) ∨
    (commandCheck s.memBytes i = none ∧ copyOverlaps i = false ∧
      exec i s = .next ((commandWork i s).respond .ok (commandValue i s.mem) (okNextPos i))) := by
  rw [exec_eq_guarded]
  cases hc : commandCheck s.memBytes i with
  | some e => exact .inl ⟨e, rfl, rfl⟩
  | none =>
    cases ho : copyOverlaps i with
    | true => exact .inr (.inl ⟨rfl, rfl, rfl⟩)
    | false => exact .inr (.inr ⟨rfl, rfl, rfl⟩)

/-- The only states in which a command can leave the unit. -/
theorem exec_next_cases {i : Instr} {s t : State} (h : exec i s = .next t) :
    (∃ e, t = s.raise e (echoPos i)) ∨
    t = (commandWork i s).respond .ok (commandValue i s.mem) (okNextPos i) := by
  obtain ⟨e, -, he⟩ | ⟨-, -, he⟩ | ⟨-, -, he⟩ := exec_cases i s <;> rw [he] at h
  · exact .inl ⟨e, (Host.Outcome.next.inj h).symm⟩
  · cases h
  · exact .inr (Host.Outcome.next.inj h).symm

/-! ### The frame of every command (R20, R22, R26, R28) -/

@[simp] theorem commandWork_memBytes (i : Instr) (s : State) : (commandWork i s).memBytes = s.memBytes := by
  cases i <;> simp [commandWork]

@[simp] theorem commandWork_host (i : Instr) (s : State) : (commandWork i s).host = s.host := by
  cases i <;> simp [commandWork]

@[simp] theorem commandWork_busy (i : Instr) (s : State) : (commandWork i s).busy = s.busy := by
  cases i <;> simp [commandWork]

@[simp] theorem commandWork_latched (i : Instr) (s : State) : (commandWork i s).latched = s.latched := by
  cases i <;> simp [commandWork]

@[simp] theorem commandWork_draws (i : Instr) (s : State) : (commandWork i s).draws = s.draws := by
  cases i <;> simp [commandWork]

/-- Only the bit copies use the copy loop's registers (R28, R171). -/
theorem commandWork_copyRegisters {i : Instr}
    (h : ∀ a aPos len b bPos, i ≠ .cpbits a aPos len b bPos ∧ i ≠ .cpbitsInc a aPos len b bPos) (s : State) :
    (commandWork i s).rem = s.rem ∧ (commandWork i s).srcCur = s.srcCur ∧
      (commandWork i s).dstCur = s.dstCur ∧ (commandWork i s).chunk = s.chunk := by
  cases i with
  | cpbits a aPos len b bPos => exact absurd rfl (h a aPos len b bPos).1
  | cpbitsInc a aPos len b bPos => exact absurd rfl (h a aPos len b bPos).2
  | _ => exact ⟨rfl, rfl, rfl, rfl⟩

/-- Settles O52: an error changes the response alone, and the work of a command keeps the rest. -/
theorem commandsChangeNothingElse : Obligations.CommandsChangeNothingElse := by
  unfold Obligations.CommandsChangeNothingElse
  intro i s t h
  obtain ⟨e, rfl⟩ | rfl := exec_next_cases h
  · simp
  · simpa using fun hi => commandWork_copyRegisters hi s

/-! ### What the registers held is never seen (R20, R21, R29) -/

/-- The memory a chunk leaves is fixed by the memory and the two cursors; what the chunk register held is lost. -/
theorem copyChunk_mem_congr {s s' : State} (hmem : s.mem = s'.mem) (hsrc : s.srcCur = s'.srcCur)
    (hdst : s.dstCur = s'.dstCur) (aBase bBase n : Nat) :
    (State.copyChunk aBase bBase n s).mem = (State.copyChunk aBase bBase n s').mem := by
  simp only [copyChunk_mem_raw, hmem, hsrc, hdst]

/-- The memory a copy loop leaves is fixed by the memory and the loop variables it starts from. -/
theorem copyLoop_mem_congr (aBase bBase fuel : Nat) {s s' : State} (hmem : s.mem = s'.mem) (hrem : s.rem = s'.rem)
    (hsrc : s.srcCur = s'.srcCur) (hdst : s.dstCur = s'.dstCur) :
    (State.copyLoop aBase bBase fuel s).mem = (State.copyLoop aBase bBase fuel s').mem := by
  induction fuel generalizing s s' with
  | zero => exact hmem
  | succ fuel ih =>
    rw [State.copyLoop, State.copyLoop, hrem]
    have hchunk := copyChunk_mem_congr hmem hsrc hdst aBase bBase
    split
    · exact ih (hchunk _) (by simp [hrem]) (by simp [hsrc]) (by simp [hdst])
    · split
      · exact hchunk _
      · exact hmem

/-- A copy sets its loop variables before it reads one. -/
theorem copyBits_mem_congr {s s' : State} (hmem : s.mem = s'.mem) (aBase aPos len bBase bPos : Nat) :
    (s.copyBits aBase aPos len bBase bPos).mem = (s'.copyBits aBase aPos len bBase bPos).mem :=
  copyLoop_mem_congr _ _ _ hmem rfl rfl rfl

/-- The memory a command leaves is fixed by the memory it starts from. -/
theorem commandWork_mem_congr (i : Instr) {s s' : State} (hmem : s.mem = s'.mem) :
    (commandWork i s).mem = (commandWork i s').mem := by
  cases i with
  | cpbits | cpbitsInc => exact copyBits_mem_congr hmem ..
  | _ => simp only [commandWork, hmem]

/-- Settles O53: check, overlap, value and memory are fixed by the memory and its size. -/
theorem equalCommandsOnEqualMemories : Obligations.EqualCommandsOnEqualMemories := by
  unfold Obligations.EqualCommandsOnEqualMemories
  intro i s s' hsize hmem
  have hs' := exec_eq_guarded i s'
  rw [← hsize] at hs'
  obtain ⟨e, hc, he⟩ | ⟨hc, ho, he⟩ | ⟨hc, ho, he⟩ := exec_cases i s <;> rw [hc] at hs' <;> rw [hs', he]
  · simp [hmem]
  · simp [ho]
  · simp [ho, hmem, commandWork_mem_congr i hmem]

end Sys2Proof.Machine

/-! PROOF. The obligations of `20_memory.md`: O16, O36, O43 and O51, with the lemmas they rest on. -/

/-! ### A canonical list is within `n` when nothing is listed from `n` on (R40) -/

namespace Sys2Proof.Machine.Memory

theorem within_cons {n x : Nat} {v : Byte} {m : Memory} :
    within n ((x, v) :: m) = true ↔ x < n ∧ within n m = true := by
  simp [within]

/-- The converse of `read_of_within` on a canonical list: what is listed reads as listed. -/
theorem within_of_read {lo n : Nat} {m : Memory} (h : wfFrom lo m = true)
    (hread : ∀ x, n ≤ x → read m x = Config.unlistedByte) : m.within n = true := by
  induction m generalizing lo with
  | nil => rfl
  | cons c m ih =>
    obtain ⟨x, v⟩ := c
    obtain ⟨-, hv, hm⟩ := wfFrom_cons.mp h
    have hx : x < n := by
      by_contra hle
      exact hv ((read_cons_same x v m).symm.trans (hread x (not_lt.mp hle)))
    refine within_cons.mpr ⟨hx, ih hm fun y hy => ?_⟩
    exact (read_cons_of_ne (by omega : y ≠ x) v m).symm.trans (hread y hy)

end Sys2Proof.Machine.Memory

namespace Sys2Proof.Machine

/-! ### Where a bit field ends, and the bytes the engines read (R43, R139) -/

/-- The first byte after the span of a field of at least one bit. -/
theorem addr_add_involvedBytes (bit : Nat) {len : Nat} (hlen : 1 ≤ len) :
    addr bit + involvedBytes bit len = (bit + len + 7) / 8 := by
  rw [addr_eq, involvedBytes_eq]; omega

theorem bitSpan_mem_iff {a : Buffer} {bit len x : Nat} (hlen : 1 ≤ len) :
    (bitSpan a bit len).Mem x ↔ a.base + bit / 8 ≤ x ∧ x < a.base + (bit + len + 7) / 8 := by
  rw [← addr_add_involvedBytes bit hlen, ← Nat.add_assoc, ← addr_eq]
  rfl

/-- A field inside another has its bytes among the other's. -/
theorem bitSpan_mem_mono {a : Buffer} {bit len p n x : Nat} (hn : 1 ≤ n) (hlo : bit ≤ p) (hhi : p + n ≤ bit + len)
    (hx : (bitSpan a p n).Mem x) : (bitSpan a bit len).Mem x := by
  rw [bitSpan_mem_iff (by omega)] at hx ⊢
  omega

theorem readFixed_congr {m m' : Memory} {a : Buffer} {bit len : Nat}
    (h : ∀ x, (bitSpan a bit len).Mem x → m.read x = m'.read x) :
    readFixed m a.base bit len = readFixed m' a.base bit len := by
  have hbytes : memRead m (a.base + addr bit) (involvedBytes bit len) =
      memRead m' (a.base + addr bit) (involvedBytes bit len) := memRead_congr fun x hlo hhi => h x ⟨hlo, hhi⟩
  rw [readFixed, readFixed, readBytesBe, readBytesBe, hbytes]

/-- The read engine depends on no byte outside the span of its field: the two parts of the split lie inside it. -/
theorem readBits_congr {m m' : Memory} {a : Buffer} {bit len : Nat}
    (h : ∀ x, (bitSpan a bit len).Mem x → m.read x = m'.read x) :
    readBits m a.base bit len = readBits m' a.base bit len := by
  have hpart : ∀ p n, 1 ≤ n → bit ≤ p → p + n ≤ bit + len → readFixed m a.base p n = readFixed m' a.base p n :=
    fun p n hn hlo hhi => readFixed_congr fun x hx => h x (bitSpan_mem_mono hn hlo hhi hx)
  rw [readBits, readBits]
  split
  · exact readFixed_congr h
  · next hk =>
    have hlast := bitsInLastByte_eq bit len
    rw [involvedBytes_eq] at hk
    rw [readSplit9, readSplit9, hpart bit _ (by omega) le_rfl (by omega),
      hpart _ (bitsInLastByte bit len) (by omega) (by omega) (by omega)]

/-- A response's value depends on no byte outside the command's read span. -/
theorem commandValue_congr {i : Instr} {m m' : Memory}
    (h : ∀ x, (readSpan i).Mem x → m.read x = m'.read x) : commandValue i m = commandValue i m' := by
  cases i with
  | rdbits | rdbitsInc => exact readBits_congr h
  | rdbytesBe => exact congrArg be (memRead_congr fun x hlo hhi => h x ⟨hlo, hhi⟩)
  | rdbytesLe => exact congrArg le (memRead_congr fun x hlo hhi => h x ⟨hlo, hhi⟩)
  | _ => rfl

/-- A command that answers ran its checks: an error ends it, or it passed them and did its work. -/
theorem exec_next_checked {i : Instr} {s t : State} (h : exec i s = .next t) :
    (∃ e, commandCheck s.memBytes i = some e ∧ t = s.raise e (echoPos i)) ∨
    (commandCheck s.memBytes i = none ∧
      t = (commandWork i s).respond .ok (commandValue i s.mem) (okNextPos i)) := by
  obtain ⟨e, hc, he⟩ | ⟨-, -, he⟩ | ⟨hc, -, he⟩ := exec_cases i s <;> rw [he] at h
  · exact .inl ⟨e, hc, (Host.Outcome.next.inj h).symm⟩
  · cases h
  · exact .inr ⟨hc, (Host.Outcome.next.inj h).symm⟩

/-- Settles O36: the checks see the memory's size alone, and the value the read span alone. -/
theorem responseDependsOnReadFootprint : Obligations.ResponseDependsOnReadFootprint := by
  unfold Obligations.ResponseDependsOnReadFootprint
  intro i s s' t t' hsize hread h h'
  obtain ⟨e, hc, rfl⟩ | ⟨hc, rfl⟩ := exec_next_checked h <;>
    obtain ⟨e', hc', rfl⟩ | ⟨hc', rfl⟩ := exec_next_checked h' <;> rw [← hsize, hc] at hc'
  · obtain rfl := Option.some.inj hc'
    rfl
  · cases hc'
  · cases hc'
  · simp only [respond_rsp, commandValue_congr hread]

/-! ### The container of a written field (R46) -/

/-- A fixed-width read of the field just written takes the value back, digit by digit. -/
theorem readFixed_writeFixed {m : Memory} (h : m.wf = true) (base bit value : Nat) {len : Nat} (hlen : 1 ≤ len) :
    readFixed (writeFixed m base bit len value) base bit len = value &&& mask len := by
  apply Nat.eq_of_testBit_eq
  intro t
  rw [readFixed_testBit _ _ _ _ _ hlen, bitAt_writeFixed h _ _ _ _ _ hlen, Nat.testBit_and, mask_testBit,
    Bool.and_comm]
  by_cases ht : t < len
  · rw [if_pos (by omega), show bit + len - 1 - (bit + len - 1 - t) = t by omega]
  · simp [ht]

/-- The bits of the covering bytes' number that a fixed-width read takes (R131). -/
theorem bitSlice_coveringBytes (m : Memory) (base bit : Nat) {len : Nat} (hlen : 1 ≤ len) :
    bitSlice (readBytesBe m base (addr bit) (involvedBytes bit len))
      (shiftAmount bit len + len - 1) (shiftAmount bit len) = readFixed m base bit len := by
  rw [bitSlice, readFixed, and_mask, show shiftAmount bit len + len - 1 - shiftAmount bit len + 1 = len by omega]

/-- Settles O43: the slice is what a fixed-width read returns, and that reads back the fixed-width write. -/
theorem bitFieldSeenThroughByteRead : Obligations.BitFieldSeenThroughByteRead := by
  unfold Obligations.BitFieldSeenThroughByteRead
  intro m base bit len value hwf hlen _ hk
  rw [bitSlice_coveringBytes _ _ _ hlen, writeBits, if_pos hk, readFixed_writeFixed hwf _ _ _ hlen]

/-! ### What a check that passes has established (R100, R136, R174) -/

theorem checkBytes_eq_none {memBytes : Nat} {b : Buffer} {off n lo hi : Nat} :
    checkBytes memBytes b off n lo hi = none ↔
      lo ≤ n ∧ n ≤ hi ∧ b.base + b.nbytes ≤ memBytes ∧ off + n ≤ b.nbytes := by
  rw [checkBytes_eq]
  split_ifs <;> simp only [false_iff, true_iff] <;> omega

theorem checkBits_eq_none {memBytes : Nat} {b : Buffer} {bit len : Nat} :
    checkBits memBytes b bit len = none ↔
      1 ≤ len ∧ len ≤ 64 ∧ b.base + b.nbytes ≤ memBytes ∧ bit + len ≤ 8 * b.nbytes := by
  rw [checkBits_eq]
  split_ifs <;> simp only [false_iff, true_iff] <;> omega

theorem checkCopy_eq_none {memBytes aPos bPos len : Nat} {a b : Buffer} :
    checkCopy memBytes a aPos b bPos len = none ↔
      1 ≤ len ∧ a.base + a.nbytes ≤ memBytes ∧ b.base + b.nbytes ≤ memBytes ∧
        aPos + len ≤ 8 * a.nbytes ∧ bPos + len ≤ 8 * b.nbytes := by
  rw [checkCopy_eq]
  split_ifs <;> simp only [false_iff, true_iff] <;> omega

theorem checkCopyBytes_eq_none {memBytes aPos bPos len : Nat} {a b : Buffer} :
    checkCopyBytes memBytes a aPos b bPos len = none ↔
      checkBytes memBytes a aPos len 1 (2 ^ 64 - 1) = none ∧ checkBytes memBytes b bPos len 1 (2 ^ 64 - 1) = none :=
  Option.or_eq_none_iff

/-- The span of a field that lies in its buffer lies in the buffer's bytes. -/
theorem bitSpan_end_le {a : Buffer} {bit len : Nat} (hlen : 1 ≤ len) (hend : bit + len ≤ 8 * a.nbytes) :
    (bitSpan a bit len).start + (bitSpan a bit len).size ≤ a.base + a.nbytes := by
  rw [bitSpan, Nat.add_assoc, addr_add_involvedBytes bit hlen]; omega

/-- A command that passes its checks writes only bytes that exist (R51). -/
theorem writeSpan_within {memBytes : Nat} {i : Instr} (hc : commandCheck memBytes i = none) :
    (writeSpan i).size = 0 ∨ (writeSpan i).start + (writeSpan i).size ≤ memBytes := by
  cases i with
  | wrbits | wrbitsInc | wrflag =>
    obtain ⟨hlen, -, hbuf, hend⟩ := checkBits_eq_none.mp hc
    exact .inr ((bitSpan_end_le hlen hend).trans hbuf)
  | cpbits | cpbitsInc =>
    obtain ⟨hlen, hbuf, -, hend, -⟩ := checkCopy_eq_none.mp hc
    exact .inr ((bitSpan_end_le hlen hend).trans hbuf)
  | wrbytesBe | wrbytesLe =>
    obtain ⟨-, -, hbuf, hend⟩ := checkBytes_eq_none.mp hc
    simp only [writeSpan, byteSpan]; omega
  | cpbytes =>
    obtain ⟨-, -, hbuf, hend⟩ := checkBytes_eq_none.mp (checkCopyBytes_eq_none.mp hc).1
    simp only [writeSpan, byteSpan]; omega
  | _ => exact .inl rfl

/-! ### The write footprint (R43, R159) -/

theorem read_memWrite_outside {m : Memory} (h : m.wf = true) {a x : Nat} {bs : List Byte}
    (hx : ¬(Span.mk a bs.length).Mem x) : (memWrite m a bs).read x = m.read x := by
  rw [read_memWrite h, dif_neg hx]

theorem read_writeBits_of_not_mem {m : Memory} (h : m.wf = true) {a : Buffer} {bit len x : Nat} (v : Nat)
    (hlen : 1 ≤ len) (h64 : len ≤ 64) (hx : ¬(bitSpan a bit len).Mem x) :
    (writeBits m a.base bit len v).read x = m.read x := by
  refine read_writeBits_outside h _ _ _ _ _ hlen h64 ?_
  rwa [Span.Mem, not_and_or, not_le, not_lt] at hx

/-- The copy loop writes no byte outside the field from its destination cursor over what remains: each chunk starts that
field, and the cursor and the remainder after it are the rest of it, as no register wraps around (R51, R171). -/
theorem read_copyLoop_outside (a : Buffer) (bBase fuel : Nat) {s : State} {x : Nat} (h : s.mem.wf = true)
    (hend : s.dstCur.toNat + s.rem.toNat < 2 ^ 64) (hx : ¬(bitSpan a s.dstCur.toNat s.rem.toNat).Mem x) :
    (State.copyLoop a.base bBase fuel s).mem.read x = s.mem.read x := by
  have h64 : Config.chunkBits = 64 := rfl
  induction fuel generalizing s with
  | zero => rfl
  | succ fuel ih =>
    have hchunk : ∀ n, 1 ≤ n → n ≤ 64 → n ≤ s.rem.toNat →
        (State.copyChunk a.base bBase n s).mem.read x = s.mem.read x := fun n hn hn64 hrem =>
      read_writeBits_of_not_mem h _ hn hn64 (hx ∘ bitSpan_mem_mono hn le_rfl (by omega))
    rw [State.copyLoop, h64]
    split
    · next hmore =>
      have hdst : (s.dstCur + 64).toNat = s.dstCur.toNat + 64 := by bv_omega
      have hrem : (s.rem - 64).toNat = s.rem.toNat - 64 := by bv_omega
      rw [ih (writeBits_wf h ..)]
      · exact hchunk 64 (by omega) le_rfl hmore.le
      · rw [copyAdvance_dstCur, copyAdvance_rem, copyChunk_dstCur, copyChunk_rem, hdst, hrem]; omega
      · rw [copyAdvance_dstCur, copyAdvance_rem, copyChunk_dstCur, copyChunk_rem, hdst, hrem]
        exact hx ∘ bitSpan_mem_mono (by omega) (by omega) (by omega)
    · split
      · exact hchunk _ ‹_› (not_lt.mp ‹_›) le_rfl
      · rfl

theorem read_copyBits_outside {s : State} (h : s.mem.wf = true) {a : Buffer} {aPos len x : Nat} (bBase bPos : Nat)
    (hend : aPos + len < 2 ^ 64) (hx : ¬(bitSpan a aPos len).Mem x) :
    (s.copyBits a.base aPos len bBase bPos).mem.read x = s.mem.read x := by
  have hdst : (BitVec.ofNat 64 aPos).toNat = aPos := Nat.mod_eq_of_lt (by omega)
  have hrem : (BitVec.ofNat 64 len).toNat = len := Nat.mod_eq_of_lt (by omega)
  exact read_copyLoop_outside a bBase _ (s := s.copyStart aPos len bPos) h
    (by rwa [copyStart_dstCur, copyStart_rem, hdst, hrem]) (by rwa [copyStart_dstCur, copyStart_rem, hdst, hrem])

theorem commandWork_wf (i : Instr) {s : State} (h : s.mem.wf = true) : (commandWork i s).mem.wf = true := by
  cases i with
  | wrbits | wrbitsInc | wrflag => exact writeBits_wf h ..
  | cpbits | cpbitsInc => exact copyBits_wf h ..
  | wrbytesBe | wrbytesLe | cpbytes => exact memWrite_wf h ..
  | _ => exact h

/-- The work of a command that passed its checks writes no byte outside its write span. -/
theorem read_commandWork_outside {i : Instr} {s : State} (hi : i.WellFormed) (h : s.mem.wf = true)
    (hc : commandCheck s.memBytes i = none) {x : Nat} (hx : ¬(writeSpan i).Mem x) :
    (commandWork i s).mem.read x = s.mem.read x := by
  cases i with
  | wrbits | wrbitsInc | wrflag =>
    obtain ⟨hlen, h64, -, -⟩ := checkBits_eq_none.mp hc
    exact read_writeBits_of_not_mem h _ hlen h64 hx
  | cpbits | cpbitsInc =>
    obtain ⟨-, -, -, hend, -⟩ := checkCopy_eq_none.mp hc
    simp only [Instr.WellFormed, Instr.wf, Bool.and_eq_true, Buffer.wf_iff] at hi
    exact read_copyBits_outside h _ _ (by omega) hx
  | wrbytesBe => exact read_memWrite_outside h (by rwa [beBytes_length])
  | wrbytesLe => exact read_memWrite_outside h (by rwa [leBytes_length])
  | cpbytes => exact read_memWrite_outside h (by rwa [memRead_length])
  | _ => rfl

theorem exec_mem_wf {i : Instr} {s t : State} (h : s.mem.wf = true) (hexec : exec i s = .next t) :
    t.mem.wf = true := by
  obtain ⟨e, rfl⟩ | rfl := exec_next_cases hexec
  · exact h
  · exact commandWork_wf i h

theorem exec_read_outside {i : Instr} {s t : State} (hi : i.WellFormed) (h : s.mem.wf = true)
    (hexec : exec i s = .next t) {x : Nat} (hx : ¬(writeSpan i).Mem x) : t.mem.read x = s.mem.read x := by
  obtain ⟨e, -, rfl⟩ | ⟨hc, rfl⟩ := exec_next_checked hexec
  · rfl
  · exact read_commandWork_outside hi h hc hx

/-- Settles O51: the frame of each command's work; and where the span is empty every byte is kept, so the two canonical
lists are one. -/
theorem writesStayInFootprint : Obligations.WritesStayInFootprint := by
  unfold Obligations.WritesStayInFootprint
  intro i s t hi hwf hexec
  refine ⟨fun x hx => exec_read_outside hi hwf hexec hx, fun hempty => ?_⟩
  refine Memory.wfFrom_ext (exec_mem_wf hwf hexec) hwf fun x => exec_read_outside hi hwf hexec ?_
  rw [Span.Mem, hempty]; omega

/-! ### Every step keeps the invariant (R28, R40, R68, R196, R222) -/

/-- What the decoder yields from fields that fit is well formed (R61, R67). -/
theorem decodeFields_wellFormed {x : Fields} {i : Instr} (hx : x.Fits) (h : decodeFields x = .ok i) :
    i.WellFormed := by
  rw [decodeFields] at h
  split at h <;> cases h <;>
    simp only [Instr.WellFormed, Instr.wf, Fields.bufA, Fields.bufB, Bool.and_eq_true, Buffer.wf_iff, posWf_iff,
      valueWf_iff, hx.aBase, hx.aNbytes, hx.aPos, hx.bBase, hx.bNbytes, hx.bPos, hx.len, hx.value, and_self]

theorem decode_wellFormed {f : Frame} {i : Instr} (h : decode f = .ok i) : i.WellFormed :=
  decodeFields_wellFormed (frame_fields_fit f) h

theorem abandonedSpan_of_error {s : State} (h : s.rsp.status ≠ .ok) : s.abandonedSpan = ⟨0, 0⟩ := by
  simp [State.abandonedSpan, h]

theorem abandonedSpan_of_ok {s : State} {i : Instr} (hbusy : s.busy = true) (hok : s.rsp.status = .ok)
    (hi : decode s.latched = .ok i) : s.abandonedSpan = writeSpan i := by
  simp [State.abandonedSpan, hbusy, hok, hi]

theorem Error.status_ne_ok (e : Error) : e.status ≠ .ok := by cases e <;> decide

/-- An idle state with the size and response of a legal state and a legal memory is legal. -/
theorem inv_of_idle {s t : State} (h : s.Inv) (hsize : t.memBytes = s.memBytes) (hrsp : t.rsp = s.rsp)
    (hwf : t.mem.wf = true) (hin : t.mem.within s.memBytes = true) (hbusy : t.busy = false)
    (hvalid : t.rspValid = false) : t.Inv where
  memBytes_pos := hsize ▸ h.memBytes_pos
  memBytes_le := hsize ▸ h.memBytes_le
  mem_wf := hwf
  mem_within := hsize ▸ hin
  rspValid_eq := hvalid.trans hbusy.symm
  error_value := hrsp ▸ h.error_value
  abandoned_within := .inl (by rw [abandonedSpan_of_idle hbusy])

/-- The invariant does not look at what the host does next. -/
theorem State.Inv.withHost {s : State} (h : s.Inv) (rest : List HostEvent) : { s with host := rest }.Inv :=
  ⟨h.memBytes_pos, h.memBytes_le, h.mem_wf, h.mem_within, h.rspValid_eq, h.error_value, h.abandoned_within⟩

theorem State.Inv.acceptResponse {s : State} (h : s.Inv) : s.acceptResponse.Inv :=
  inv_of_idle h rfl rfl h.mem_wf h.mem_within rfl rfl

/-- A reset draws only bytes that exist (R222). -/
theorem State.Inv.applyReset {s : State} (h : s.Inv) : s.applyReset.Inv := by
  have hin : (s.drawBytes s.abandonedSpan.start s.abandonedSpan.size).mem.within s.memBytes = true := by
    obtain hempty | hend := h.abandoned_within
    · rw [hempty]; exact h.mem_within
    · exact drawBytes_within h.mem_within hend
  exact inv_of_idle h (drawBytes_memBytes ..) (drawBytes_rsp ..) (drawBytes_wf h.mem_wf ..) hin rfl rfl

/-- A host write that is taken names a byte that exists (R40, R229). -/
theorem hostWrite_inv {s t : State} {a : Nat} {b : Byte} (h : s.Inv) (hbusy : s.busy = false)
    (hw : hostWrite a b s = .next t) : t.Inv := by
  rw [hostWrite] at hw
  split at hw
  · next ha =>
    cases hw
    exact inv_of_idle h rfl rfl (Memory.wf_write h.mem_wf ..) (Memory.within_write h.mem_within ha _) hbusy
      (h.rspValid_eq.trans hbusy)
  · cases hw

/-- An error writes nothing, carries no value and leaves a reset nothing to draw (R196). -/
theorem raise_accept_inv {s : State} (h : s.Inv) (f : Frame) (e : Error) (echo : Nat) :
    ((s.accept f).raise e echo).Inv where
  memBytes_pos := h.memBytes_pos
  memBytes_le := h.memBytes_le
  mem_wf := h.mem_wf
  mem_within := h.mem_within
  rspValid_eq := rfl
  error_value := fun _ => rfl
  abandoned_within := .inl (by rw [abandonedSpan_of_error (s := (s.accept f).raise e echo) e.status_ne_ok])

/-- The work of a command that passed its checks lists only bytes that exist: it writes in its span, and that exists. -/
theorem commandWork_within {i : Instr} {s : State} (hi : i.WellFormed) (hwf : s.mem.wf = true)
    (hin : s.mem.within s.memBytes = true) (hc : commandCheck s.memBytes i = none) :
    (commandWork i s).mem.within s.memBytes = true := by
  refine Memory.within_of_read (commandWork_wf i hwf) fun x hx => ?_
  rw [read_commandWork_outside hi hwf hc, Memory.read_of_within hin hx]
  have hspan := writeSpan_within hc
  rw [Span.Mem]; omega

/-- A command that does its work leaves a reset its write span to draw, which exists (R222). -/
theorem respond_commandWork_inv {s : State} (h : s.Inv) {f : Frame} {i : Instr} (hi : decode f = .ok i)
    (hc : commandCheck s.memBytes i = none) (value nextPos : Nat) :
    ((commandWork i (s.accept f)).respond .ok value nextPos).Inv where
  memBytes_pos := by simpa using h.memBytes_pos
  memBytes_le := by simpa using h.memBytes_le
  mem_wf := commandWork_wf i (s := s.accept f) h.mem_wf
  mem_within := by
    simpa using commandWork_within (s := s.accept f) (decode_wellFormed hi) h.mem_wf h.mem_within hc
  rspValid_eq := by simp
  error_value := fun hne => absurd rfl hne
  abandoned_within := by
    rw [abandonedSpan_of_ok (i := i) (by simp) rfl (by simpa using hi)]
    simpa using writeSpan_within hc

/-- An accepted frame is answered in a legal state. -/
theorem runFrame_accept_inv {s t : State} {f : Frame} (h : s.Inv) (hrun : runFrame f (s.accept f) = .next t) :
    t.Inv := by
  rw [runFrame] at hrun
  split at hrun
  · next i hi =>
    obtain ⟨e, -, rfl⟩ | ⟨hc, rfl⟩ := exec_next_checked hrun
    · exact raise_accept_inv h ..
    · exact respond_commandWork_inv h hi hc ..
  · cases hrun
    exact raise_accept_inv h ..

/-- Settles O16, event by event: a reset, then the acceptance by a busy unit, then each event an idle unit takes. -/
theorem stepKeepsInvariant : Obligations.StepKeepsInvariant := by
  unfold Obligations.StepKeepsInvariant
  intro s t h hstep
  by_cases hreset : ∃ rest, s.host = .reset :: rest
  · obtain ⟨rest, hhost⟩ := hreset
    rw [step_reset hhost] at hstep
    cases hstep
    exact (h.withHost rest).applyReset
  · cases hbusy : s.busy with
    | true =>
      rw [step_busy (not_exists.mp hreset) hbusy] at hstep
      cases hstep
      exact h.acceptResponse
    | false =>
      cases hhost : s.host with
      | nil =>
        rw [step_idle hhost hbusy] at hstep
        cases hstep
        exact h
      | cons event rest =>
        cases event with
        | command f =>
          rw [step_command hhost hbusy] at hstep
          exact runFrame_accept_inv (h.withHost rest) hstep
        | write a b =>
          rw [step_write hhost hbusy] at hstep
          exact hostWrite_inv (h.withHost rest) hbusy hstep
        | reset => exact absurd ⟨rest, hhost⟩ hreset

end Sys2Proof.Machine

/-! PROOF. The obligations of `30_encoding.md`: O1 to O7, O9 and O50, with the lemmas they rest on. -/

/-! ### Frames and their fields determine each other (R61) -/

namespace Sys2Proof

open Machine

/-- The fields of a frame leave out none of its bits. -/
theorem frame_fields (f : Frame) : f.fields.frame = f := by
  apply BitVec.eq_of_toNat_eq
  have hf := f.isLt
  simp only [Fields.frame, Frame.fields, bitSlice_eq, BitVec.toNat_ofNat, Nat.shiftLeft_eq]
  omega

theorem fields_injective : Function.Injective Frame.fields :=
  Function.LeftInverse.injective (g := Fields.frame) frame_fields

theorem fields_encode {i : Instr} (h : i.WellFormed) : (encode i).fields = i.toFields :=
  fields_frame (toFields_fit h)

/-! ### Every command is read back from its canonical encoding (R62, R66) -/

theorem decodeFields_toFields : ∀ i : Instr, decodeFields i.toFields = .ok i
  | .rdbits .. => Laws.DecodeFields.rdbits ..
  | .rdbitsInc .. => Laws.DecodeFields.rdbitsInc ..
  | .wrbits .. => Laws.DecodeFields.wrbits ..
  | .wrbitsInc .. => Laws.DecodeFields.wrbitsInc ..
  | .wrflag .. => Laws.DecodeFields.wrflag ..
  | .cpbits .. => Laws.DecodeFields.cpbits ..
  | .cpbitsInc .. => Laws.DecodeFields.cpbitsInc ..
  | .rdbytesBe .. => Laws.DecodeFields.rdbytesBe ..
  | .rdbytesLe .. => Laws.DecodeFields.rdbytesLe ..
  | .wrbytesBe .. => Laws.DecodeFields.wrbytesBe ..
  | .wrbytesLe .. => Laws.DecodeFields.wrbytesLe ..
  | .cpbytes .. => Laws.DecodeFields.cpbytes ..
  | .advance .. => Laws.DecodeFields.advance ..

theorem decode_encode {i : Instr} (h : i.WellFormed) : decode (encode i) = .ok i := by
  rw [decode, fields_encode h, decodeFields_toFields]

/-- Settles O1: the frame keeps the fields the encoder lays out, and those spell the command. -/
theorem decodeEncodeRoundTrip : Obligations.DecodeEncodeRoundTrip := by
  unfold Obligations.DecodeEncodeRoundTrip
  exact fun _ => decode_encode

/-! ### The opcodes (R66, R67) -/

theorem decodeFields_of_legal {x : Fields} (h : 1 ≤ x.op ∧ x.op ≤ 13) :
    ∃ i, decodeFields x = .ok i ∧ i.opcode = x.op := by
  obtain ⟨op, aBase, aNbytes, aPos, bBase, bNbytes, bPos, len, value⟩ := x
  obtain ⟨hlo, hhi⟩ := h
  simp only at hlo hhi
  interval_cases op <;> exact ⟨_, rfl, rfl⟩

theorem decodeFields_of_reserved {x : Fields} (h : x.op = 0 ∨ 14 ≤ x.op) :
    decodeFields x = .error (.illegalOp x.op) := by
  rw [decodeFields]
  split
  case h_14 => rfl
  all_goals omega

theorem legal_or_reserved (op : Nat) : (1 ≤ op ∧ op ≤ 13) ∨ op = 0 ∨ 14 ≤ op := by omega

/-- Settles O4. -/
theorem decoderRejectsReservedOpcodes : Obligations.DecoderRejectsReservedOpcodes := by
  unfold Obligations.DecoderRejectsReservedOpcodes
  exact fun _ => ⟨decodeFields_of_legal, decodeFields_of_reserved⟩

/-! ### Ignored bits (R62) -/

/-- The fields of the bitwise and of two frames. -/
def Fields.and (x y : Fields) : Fields where
  op := x.op &&& y.op
  aBase := x.aBase &&& y.aBase
  aNbytes := x.aNbytes &&& y.aNbytes
  aPos := x.aPos &&& y.aPos
  bBase := x.bBase &&& y.bBase
  bNbytes := x.bNbytes &&& y.bNbytes
  bPos := x.bPos &&& y.bPos
  len := x.len &&& y.len
  value := x.value &&& y.value

theorem bitSlice_and (v w hi lo : Nat) : bitSlice (v &&& w) hi lo = bitSlice v hi lo &&& bitSlice w hi lo := by
  rw [bitSlice, Nat.shiftRight_and_distrib, Nat.and_mod_two_pow]; rfl

theorem fields_and (f g : Frame) : (f &&& g).fields = f.fields.and g.fields := by
  simp only [Frame.fields, Fields.and, BitVec.toNat_and, bitSlice_and]

theorem and_mask_of_lt {v n : Nat} (h : v < 2 ^ n) : v &&& mask n = v := by
  rw [and_mask, Nat.mod_eq_of_lt h]

/-- The fields of `usedMask`: all ones in each field the opcode uses, zero in the others (R62). -/
def usedFields : Nat → Fields
  | 0x01 | 0x02 | 0x08 | 0x09 => ⟨mask 8, mask 32, mask 32, mask 64, 0, 0, 0, mask 64, 0⟩
  | 0x03 | 0x04 | 0x0A | 0x0B => ⟨mask 8, mask 32, mask 32, mask 64, 0, 0, 0, mask 64, mask 64⟩
  | 0x05 => ⟨mask 8, mask 32, mask 32, mask 64, 0, 0, 0, 0, mask 64⟩
  | 0x06 | 0x07 | 0x0C => ⟨mask 8, mask 32, mask 32, mask 64, mask 32, mask 32, mask 64, mask 64, 0⟩
  | 0x0D => ⟨mask 8, 0, 0, mask 64, 0, 0, 0, mask 64, 0⟩
  | _ => ⟨mask 8, 0, 0, 0, 0, 0, 0, 0, 0⟩

theorem usedMask_fields (op : Nat) : (usedMask op).fields = usedFields op := by
  obtain ⟨hlo, hhi⟩ | rfl | hreserved := legal_or_reserved op
  · interval_cases op <;> decide
  · decide
  · obtain ⟨n, rfl⟩ := Nat.exists_eq_add_of_le' hreserved
    have hmask : usedMask (n + 14) = usedMask 0 := rfl
    have hfields : usedFields (n + 14) = usedFields 0 := rfl
    rw [hmask, hfields]
    decide

theorem usedFields_op (op : Nat) : (usedFields op).op = mask 8 := by
  unfold usedFields
  split <;> rfl

theorem op_and_usedMask (f : Frame) (op : Nat) : (f &&& usedMask op).fields.op = f.fields.op := by
  rw [fields_and, usedMask_fields, Fields.and, usedFields_op, and_mask_of_lt (frame_fields_fit f).op]

/-- The fields a command is encoded with are those it was decoded from, the ignored ones zero. -/
theorem toFields_of_decodeFields {x : Fields} {i : Instr} (hx : x.Fits) (h : decodeFields x = .ok i) :
    i.toFields = x.and (usedFields x.op) := by
  rw [decodeFields] at h
  split at h
  case h_14 => cases h
  all_goals
    next hop =>
      cases h
      simp only [Instr.toFields, Instr.opcode, Fields.bufA, Fields.bufB, Fields.and, usedFields, hop, Nat.and_zero,
        and_mask_of_lt hx.aBase, and_mask_of_lt hx.aNbytes, and_mask_of_lt hx.aPos, and_mask_of_lt hx.bBase,
        and_mask_of_lt hx.bNbytes, and_mask_of_lt hx.bPos, and_mask_of_lt hx.len, and_mask_of_lt hx.value]
      rfl

theorem encode_of_decode {f : Frame} {i : Instr} (h : decode f = .ok i) :
    encode i = f &&& usedMask f.fields.op := by
  apply fields_injective
  rw [fields_encode (decode_wellFormed h), fields_and, usedMask_fields,
    toFields_of_decodeFields (frame_fields_fit f) h]

/-- Settles O2. -/
theorem canonicalEncodingClearsIgnoredBits : Obligations.CanonicalEncodingClearsIgnoredBits := by
  unfold Obligations.CanonicalEncodingClearsIgnoredBits
  exact fun _ _ h => ⟨decode_wellFormed h, encode_of_decode h⟩

/-- Settles O3: the opcode is among the used bits; two frames with one legal opcode have one canonical encoding, and
it is read back as the command of either. -/
theorem ignoredBitsChangeNothing : Obligations.IgnoredBitsChangeNothing := by
  unfold Obligations.IgnoredBitsChangeNothing
  intro f g hused
  have hop : f.fields.op = g.fields.op := by
    rw [← op_and_usedMask f f.fields.op, hused, op_and_usedMask]
  obtain hlegal | hreserved := legal_or_reserved f.fields.op
  · obtain ⟨i, hi, -⟩ := decodeFields_of_legal hlegal
    obtain ⟨j, hj, -⟩ := decodeFields_of_legal (hop ▸ hlegal)
    calc
      decode f = .ok i := hi
      _ = decode (encode i) := (decode_encode (decode_wellFormed hi)).symm
      _ = decode (encode j) := by rw [encode_of_decode hi, encode_of_decode hj, hused]
      _ = .ok j := decode_encode (decode_wellFormed hj)
      _ = decode g := hj.symm
  · rw [decode, decodeFields_of_reserved hreserved, decode, decodeFields_of_reserved (hop ▸ hreserved), hop]

/-- Settles O5: each printed frame is evaluated. -/
theorem printedFramesDecode : Obligations.PrintedFramesDecode := by
  unfold Obligations.PrintedFramesDecode
  exact ⟨rfl, rfl, rfl, rfl, rfl, rfl, rfl⟩

end Sys2Proof

namespace Sys2Proof.Machine

/-! ### The response frame (R64, R190) -/

theorem Status.code_lt (st : Status) : st.code < 2 ^ 8 := by cases st <;> decide

@[simp] theorem Status.ofCode_code (st : Status) : Status.ofCode st.code = some st := by cases st <;> rfl

/-- The three fields of a response keep apart in its frame. -/
theorem Response.bitSlice_toNat_frame (r : Response) :
    bitSlice r.frame.toNat 7 0 = r.status.code ∧ bitSlice r.frame.toNat 71 8 = r.value.toNat ∧
      bitSlice r.frame.toNat 135 72 = r.nextPos.toNat := by
  have hstatus := r.status.code_lt
  have hvalue := r.value.isLt
  have hnextPos := r.nextPos.isLt
  simp only [Response.frame, bitSlice_eq, BitVec.toNat_ofNat, Nat.shiftLeft_eq]
  omega

theorem Response.ofFrame_frame (r : Response) : Response.ofFrame r.frame = some r := by
  obtain ⟨hstatus, hvalue, hnextPos⟩ := r.bitSlice_toNat_frame
  simp [Response.ofFrame, hstatus, hvalue, hnextPos]

/-- Settles O6. -/
theorem responseFrameHoldsItsFields : Obligations.ResponseFrameHoldsItsFields := by
  unfold Obligations.ResponseFrameHoldsItsFields
  intro r
  obtain ⟨hstatus, hvalue, hnextPos⟩ := r.bitSlice_toNat_frame
  exact ⟨hstatus, hvalue, hnextPos, r.ofFrame_frame⟩

/-! ### The command port (R60, R68, R226, R228) -/

theorem runFrame_of_decode {f : Frame} {i : Instr} (h : decode f = .ok i) (s : State) : runFrame f s = exec i s := by
  rw [runFrame, h]

/-- Settles O7. -/
theorem stepRunsDecodedCommand : Obligations.StepRunsDecodedCommand := by
  unfold Obligations.StepRunsDecodedCommand
  intro s f rest i hhost hbusy hi
  rw [step_command hhost hbusy, runFrame_of_decode hi, State.accept]

/-- Settles O9. -/
theorem busyUnitOnlyGivesItsResponse : Obligations.BusyUnitOnlyGivesItsResponse := by
  unfold Obligations.BusyUnitOnlyGivesItsResponse
  intro s hbusy hreset
  exact ⟨by rw [State.cmdReady, hbusy]; rfl, s.acceptResponse, step_busy hreset hbusy, rfl, rfl⟩

/-! ### What an `OK` response carries (R64, R65) -/

theorem checkAdvance_eq_none {aPos len : Nat} : checkAdvance aPos len = none ↔ aPos + len < 2 ^ 64 := by
  rw [checkAdvance_eq]
  split_ifs <;> simp only [false_iff, true_iff] <;> omega

/-- A position a command answers after its checks have passed fits its 64-bit field: it is at most the end of a buffer,
or the sum that `ADVANCE` has checked. -/
theorem okNextPos_lt {memBytes : Nat} {i : Instr} (hi : i.WellFormed) (hc : commandCheck memBytes i = none) :
    okNextPos i < 2 ^ 64 := by
  cases i with
  | rdbitsInc | wrbitsInc =>
    obtain ⟨-, -, -, hend⟩ := checkBits_eq_none.mp hc
    simp only [Instr.WellFormed, Instr.wf, Bool.and_eq_true, Buffer.wf_iff] at hi
    rw [okNextPos]; omega
  | cpbitsInc =>
    obtain ⟨-, -, -, -, hend⟩ := checkCopy_eq_none.mp hc
    simp only [Instr.WellFormed, Instr.wf, Bool.and_eq_true, Buffer.wf_iff] at hi
    rw [okNextPos]; omega
  | advance => exact checkAdvance_eq_none.mp hc
  | _ => exact Nat.two_pow_pos 64

theorem commandValue_of_not_read {i : Instr} (h : isRead i = false) (m : Memory) : commandValue i m = 0 := by
  cases i with
  | rdbits | rdbitsInc | rdbytesBe | rdbytesLe => cases h
  | _ => rfl

/-- Settles O50: no error answers `OK`, and a position that passed the checks does not wrap around. -/
theorem okResponsesCarryNextPosition : Obligations.OkResponsesCarryNextPosition := by
  unfold Obligations.OkResponsesCarryNextPosition
  intro i s t hi hexec hok
  obtain ⟨e, -, rfl⟩ | ⟨hc, rfl⟩ := exec_next_checked hexec
  · exact absurd hok e.status_ne_ok
  · refine ⟨Nat.mod_eq_of_lt (okNextPos_lt hi hc), fun hread => ?_⟩
    rw [respond_rsp, commandValue_of_not_read hread]
    rfl

end Sys2Proof.Machine

/-! PROOF. The obligations of `40_byte_accessor.md`: O17 to O27, with the lemmas they rest on. -/

namespace Sys2Proof.Machine

/-! ### Byte orders as positional sums (R90, R91) -/

/-- `MemRead` as the list of the bytes at the addresses it names. -/
theorem memRead_eq_map (m : Memory) (a n : Nat) : memRead m a n = (List.range n).map fun i => m.read (a + i) := by
  refine List.ext_getElem (by simp) fun i h _ => ?_
  rw [memRead_getElem m a n i h, List.getElem_map, List.getElem_range]

theorem be_map_range (f : Nat → Byte) (n : Nat) :
    be ((List.range n).map f) = ∑ i ∈ Finset.range n, (f i).toNat * 256 ^ (n - 1 - i) := by
  induction n generalizing f with
  | zero => rfl
  | succ n ih =>
    have htail : ∀ i, n - 1 - i = n - (i + 1) := fun i => by omega
    rw [List.range_succ_eq_map, List.map_cons, List.map_map, be, ih, Finset.sum_range_succ', add_comm]
    simp [htail]

theorem le_map_range (f : Nat → Byte) (n : Nat) :
    le ((List.range n).map f) = ∑ i ∈ Finset.range n, (f i).toNat * 256 ^ i := by
  induction n generalizing f with
  | zero => rfl
  | succ n ih =>
    have hshift : ∀ x i, 256 * (x * 256 ^ i) = x * 256 ^ (i + 1) := fun x i => by ring
    rw [List.range_succ_eq_map, List.map_cons, List.map_map, le, ih, Finset.sum_range_succ', add_comm,
      Finset.mul_sum]
    simp [hshift]

theorem readBytesBe_eq_sum (m : Memory) (base off n : Nat) :
    readBytesBe m base off n = ∑ i ∈ Finset.range n, (m.read (base + off + i)).toNat * 256 ^ (n - 1 - i) := by
  rw [readBytesBe, memRead_eq_map, be_map_range]

theorem readBytesLe_eq_sum (m : Memory) (base off n : Nat) :
    readBytesLe m base off n = ∑ i ∈ Finset.range n, (m.read (base + off + i)).toNat * 256 ^ i := by
  rw [readBytesLe, memRead_eq_map, le_map_range]

theorem readBytesBe_lt (m : Memory) (base off n : Nat) : readBytesBe m base off n < 256 ^ n := by
  simpa [readBytesBe] using be_lt (memRead m (base + off) n)

theorem readBytesLe_lt (m : Memory) (base off n : Nat) : readBytesLe m base off n < 256 ^ n := by
  simpa [readBytesLe] using le_lt (memRead m (base + off) n)

/-- Settles O17. -/
theorem bigEndianReadIsPositionalSum : Obligations.BigEndianReadIsPositionalSum := by
  unfold Obligations.BigEndianReadIsPositionalSum
  exact fun m base off n => ⟨readBytesBe_eq_sum m base off n, readBytesBe_lt m base off n⟩

/-- Settles O18. -/
theorem littleEndianReadIsPositionalSum : Obligations.LittleEndianReadIsPositionalSum := by
  unfold Obligations.LittleEndianReadIsPositionalSum
  exact fun m base off n => ⟨readBytesLe_eq_sum m base off n, readBytesLe_lt m base off n⟩

/-! ### The bytes a fixed-width write stores (R92, R93) -/

theorem read_memWrite_at {m : Memory} (h : m.wf = true) (a : Nat) {bs : List Byte} {i : Nat} (hi : i < bs.length) :
    (memWrite m a bs).read (a + i) = bs[i] := by
  rw [read_memWrite h, dif_pos (by omega)]
  simp only [Nat.add_sub_cancel_left]

/-- Bytes read from where they were just written (R16). -/
theorem memRead_memWrite {m : Memory} (h : m.wf = true) (a : Nat) (bs : List Byte) :
    memRead (memWrite m a bs) a bs.length = bs := by
  refine List.ext_getElem (by simp) fun i hi hi' => ?_
  rw [memRead_getElem, read_memWrite_at h a hi']

/-- The byte a write stores of a number is the number's low 8 bits. -/
theorem toNat_ofNat_byte (v : Nat) : (BitVec.ofNat 8 v).toNat = v &&& 0xFF :=
  (Nat.and_two_pow_sub_one_eq_mod v 8).symm

theorem toNat_read_writeBytesBe {m : Memory} (h : m.wf = true) (base off v : Nat) {n i : Nat} (hi : i < n) :
    ((writeBytesBe m base off n v).read (base + off + i)).toNat =
      ((v % 256 ^ n) >>> (8 * (n - 1 - i))) &&& 0xFF := by
  rw [writeBytesBe, read_memWrite_at h _ (by rwa [beBytes_length]), beBytes_getElem, toNat_ofNat_byte]

theorem toNat_read_writeBytesLe {m : Memory} (h : m.wf = true) (base off v : Nat) {n i : Nat} (hi : i < n) :
    ((writeBytesLe m base off n v).read (base + off + i)).toNat = ((v % 256 ^ n) >>> (8 * i)) &&& 0xFF := by
  rw [writeBytesLe, read_memWrite_at h _ (by rwa [leBytes_length]), leBytes_getElem, toNat_ofNat_byte]

theorem read_writeBytesBe_outside {m : Memory} (h : m.wf = true) {a : Buffer} {off n x : Nat} (v : Nat)
    (hx : ¬(byteSpan a off n).Mem x) : (writeBytesBe m a.base off n v).read x = m.read x :=
  read_memWrite_outside h (by rwa [beBytes_length])

theorem read_writeBytesLe_outside {m : Memory} (h : m.wf = true) {a : Buffer} {off n x : Nat} (v : Nat)
    (hx : ¬(byteSpan a off n).Mem x) : (writeBytesLe m a.base off n v).read x = m.read x :=
  read_memWrite_outside h (by rwa [leBytes_length])

/-- Settles O19: each byte of `MemWrite` is a byte of `beBytes`. -/
theorem bigEndianWriteStoresTruncatedValue : Obligations.BigEndianWriteStoresTruncatedValue := by
  unfold Obligations.BigEndianWriteStoresTruncatedValue
  exact fun m base off n v hwf =>
    ⟨fun i hi => toNat_read_writeBytesBe hwf base off v hi,
      fun x hx => read_writeBytesBe_outside (a := ⟨base, 0⟩) hwf v hx⟩

/-- Settles O20: each byte of `MemWrite` is a byte of `leBytes`. -/
theorem littleEndianWriteStoresTruncatedValue : Obligations.LittleEndianWriteStoresTruncatedValue := by
  unfold Obligations.LittleEndianWriteStoresTruncatedValue
  exact fun m base off n v hwf =>
    ⟨fun i hi => toNat_read_writeBytesLe hwf base off v hi,
      fun x hx => read_writeBytesLe_outside (a := ⟨base, 0⟩) hwf v hx⟩

/-! ### A number and its bytes (R101) -/

theorem shiftRight_and_ff (v i : Nat) : (v >>> (8 * i)) &&& 0xFF = v / 256 ^ i % 256 := by
  have hmod : (v >>> (8 * i)) &&& 0xFF = (v >>> (8 * i)) % 256 := Nat.and_two_pow_sub_one_eq_mod _ 8
  have hpow : 2 ^ (8 * i) = 256 ^ i := pow_mul 2 8 i
  rw [hmod, Nat.shiftRight_eq_div_pow, hpow]

/-- Truncation to `n` bytes keeps each of them. -/
theorem mod_shiftRight_and_ff (v : Nat) {n i : Nat} (hi : i < n) :
    ((v % 256 ^ n) >>> (8 * i)) &&& 0xFF = (v >>> (8 * i)) &&& 0xFF := by
  obtain ⟨k, rfl⟩ := Nat.exists_eq_add_of_lt hi
  rw [shiftRight_and_ff, shiftRight_and_ff, Nat.add_assoc, pow_add, Nat.mod_mul_right_div_self, pow_succ,
    Nat.mod_mul_left_mod]

/-- The bytes of a number, each at its weight, make up the number truncated to them: its digits in base 256. -/
theorem sum_bytes (v n : Nat) : ∑ i ∈ Finset.range n, ((v >>> (8 * i)) &&& 0xFF) * 256 ^ i = v % 256 ^ n := by
  induction n with
  | zero => simp [Nat.mod_one]
  | succ n ih => rw [Finset.sum_range_succ, ih, shiftRight_and_ff, Nat.mod_pow_succ, Nat.mul_comm]

theorem le_leBytes (n v : Nat) : le (leBytes n v) = v % 256 ^ n := by
  simp only [leBytes, le_map_range, toNat_ofNat_byte]
  rw [sum_bytes, Nat.mod_mod]

/-- The big-endian bytes are the little-endian ones from the other end, each at the weight of its own place. -/
theorem be_beBytes (n v : Nat) : be (beBytes n v) = v % 256 ^ n := by
  simp only [beBytes, be_map_range, toNat_ofNat_byte]
  rw [Finset.sum_range_reflect (fun i => (((v % 256 ^ n) >>> (8 * i)) &&& 0xFF) * 256 ^ i) n, sum_bytes, Nat.mod_mod]

theorem be_leBytes (n v : Nat) :
    be (leBytes n v) = ∑ i ∈ Finset.range n, ((v >>> (8 * i)) &&& 0xFF) * 256 ^ (n - 1 - i) := by
  simp only [leBytes, be_map_range, toNat_ofNat_byte]
  exact Finset.sum_congr rfl fun i hi => by rw [mod_shiftRight_and_ff v (Finset.mem_range.mp hi)]

theorem memRead_writeBytesBe {m : Memory} (h : m.wf = true) (base off n v : Nat) :
    memRead (writeBytesBe m base off n v) (base + off) n = beBytes n v := by
  simpa [writeBytesBe] using memRead_memWrite h (base + off) (beBytes n v)

theorem memRead_writeBytesLe {m : Memory} (h : m.wf = true) (base off n v : Nat) :
    memRead (writeBytesLe m base off n v) (base + off) n = leBytes n v := by
  simpa [writeBytesLe] using memRead_memWrite h (base + off) (leBytes n v)

theorem readBytesBe_one (m : Memory) (base off : Nat) : readBytesBe m base off 1 = readBytesLe m base off 1 := by
  rw [readBytesBe_eq_sum, readBytesLe_eq_sum, Finset.sum_range_one, Finset.sum_range_one]

theorem beBytes_one (v : Nat) : beBytes 1 v = leBytes 1 v := rfl

/-- Settles O21: a read takes back the list of bytes a write stored, and each order sums that list. -/
theorem byteOrderLaws : Obligations.ByteOrderLaws := by
  unfold Obligations.ByteOrderLaws
  intro m base off n v hwf _ _
  refine ⟨?_, ?_, ?_, readBytesBe_one m base off, by rw [writeBytesBe, writeBytesLe, beBytes_one]⟩
  · rw [readBytesBe, memRead_writeBytesBe hwf, be_beBytes]
  · rw [readBytesLe, memRead_writeBytesLe hwf, le_leBytes]
  · rw [readBytesBe, memRead_writeBytesLe hwf, be_leBytes]

/-! ### The answer of a command, once its checks are known (R64, R196) -/

theorem exec_of_check_some {i : Instr} {s : State} {e : Error} (hc : commandCheck s.memBytes i = some e) :
    exec i s = .next (s.withRsp ⟨e.status, 0, BitVec.ofNat 64 (echoPos i)⟩) := by
  rw [exec_eq_guarded, hc]; rfl

theorem exec_of_check_none {i : Instr} {s : State} (hc : commandCheck s.memBytes i = none)
    (ho : copyOverlaps i = false) :
    exec i s = .next ((commandWork i s).withRsp
      ⟨.ok, BitVec.ofNat 64 (commandValue i s.mem), BitVec.ofNat 64 (okNextPos i)⟩) := by
  rw [exec_eq_guarded, hc, guarded_none, ho]; rfl

/-! ### The commands of one buffer and 1 to 8 bytes (R94 to R97, R100) -/

/-- The two errors of a command whose check is `check_bytes` for 1 to 8 bytes and that has no cursor to echo. -/
theorem exec_byteAccess_errors {i : Instr} {a : Buffer} {aPos len : Nat}
    (hcheck : ∀ memBytes, commandCheck memBytes i = checkBytes memBytes a aPos len 1 8) (hecho : echoPos i = 0)
    (s : State) :
    (len = 0 ∨ 8 < len → exec i s = .next (s.withRsp ⟨.invalidLength, 0, 0⟩)) ∧
    (1 ≤ len → len ≤ 8 → s.memBytes < a.base + a.nbytes ∨ a.nbytes < aPos + len →
      exec i s = .next (s.withRsp ⟨.outOfBounds, 0, 0⟩)) := by
  have hanswer : ∀ e, checkBytes s.memBytes a aPos len 1 8 = some e →
      exec i s = .next (s.withRsp ⟨e.status, 0, 0⟩) := fun e he => by
    rw [exec_of_check_some ((hcheck _).trans he), hecho]; rfl
  refine ⟨fun hlen => hanswer .invalidLength ?_, fun hlo hhi hbounds => hanswer .outOfBounds ?_⟩
  · rw [checkBytes_eq, if_pos (by omega)]
  · rw [checkBytes_eq, if_neg (by omega), if_pos hbounds]

/-- A number of at most 8 bytes fits the 64-bit value field. -/
theorem toNat_ofNat_of_bytes {v n : Nat} (hv : v < 256 ^ n) (hn : n ≤ 8) : (BitVec.ofNat 64 v).toNat = v := by
  have hpow : (256 : Nat) ^ n ≤ 256 ^ 8 := Nat.pow_le_pow_right (by omega) hn
  exact Nat.mod_eq_of_lt (hv.trans_le hpow)

/-- Settles O22: the checks of one buffer, then a value that the 64-bit field holds whole. -/
theorem rdbytesBeReadsBigEndian : Obligations.RdbytesBeReadsBigEndian := by
  unfold Obligations.RdbytesBeReadsBigEndian
  intro a aPos len s
  obtain ⟨hlength, hbounds⟩ := exec_byteAccess_errors (i := .rdbytesBe a aPos len) (fun _ => rfl) rfl s
  refine ⟨rfl, hlength, hbounds, fun hlo hhi hbuf hend =>
    ⟨_, exec_of_check_none (checkBytes_eq_none.mpr ⟨hlo, hhi, hbuf, hend⟩) rfl, ?_⟩⟩
  rw [commandValue, toNat_ofNat_of_bytes (readBytesBe_lt ..) hhi, readBytesBe_eq_sum]

/-- Settles O23: as O22, with the other byte order. -/
theorem rdbytesLeReadsLittleEndian : Obligations.RdbytesLeReadsLittleEndian := by
  unfold Obligations.RdbytesLeReadsLittleEndian
  intro a aPos len s
  obtain ⟨hlength, hbounds⟩ := exec_byteAccess_errors (i := .rdbytesLe a aPos len) (fun _ => rfl) rfl s
  refine ⟨rfl, hlength, hbounds, fun hlo hhi hbuf hend =>
    ⟨_, exec_of_check_none (checkBytes_eq_none.mpr ⟨hlo, hhi, hbuf, hend⟩) rfl, ?_⟩⟩
  rw [commandValue, toNat_ofNat_of_bytes (readBytesLe_lt ..) hhi, readBytesLe_eq_sum]

/-- Settles O24: the checks of one buffer, then the bytes of the fixed-width write. -/
theorem wrbytesBeWritesBigEndian : Obligations.WrbytesBeWritesBigEndian := by
  unfold Obligations.WrbytesBeWritesBigEndian
  intro a aPos len value s
  obtain ⟨hlength, hbounds⟩ := exec_byteAccess_errors (i := .wrbytesBe a aPos len value) (fun _ => rfl) rfl s
  exact ⟨rfl, hlength, hbounds, fun hwf hlo hhi hbuf hend =>
    ⟨_, exec_of_check_none (checkBytes_eq_none.mpr ⟨hlo, hhi, hbuf, hend⟩) rfl,
      fun _ hi => toNat_read_writeBytesBe hwf _ _ _ hi, fun _ hx => read_writeBytesBe_outside hwf _ hx⟩⟩

/-- Settles O25: as O24, with the other byte order. -/
theorem wrbytesLeWritesLittleEndian : Obligations.WrbytesLeWritesLittleEndian := by
  unfold Obligations.WrbytesLeWritesLittleEndian
  intro a aPos len value s
  obtain ⟨hlength, hbounds⟩ := exec_byteAccess_errors (i := .wrbytesLe a aPos len value) (fun _ => rfl) rfl s
  exact ⟨rfl, hlength, hbounds, fun hwf hlo hhi hbuf hend =>
    ⟨_, exec_of_check_none (checkBytes_eq_none.mpr ⟨hlo, hhi, hbuf, hend⟩) rfl,
      fun _ hi => toNat_read_writeBytesLe hwf _ _ _ hi, fun _ hx => read_writeBytesLe_outside hwf _ hx⟩⟩

/-! ### `CPBYTES` (R98) -/

/-- The test for a common byte finds one exactly when there is one. -/
theorem Span.overlaps_iff {p q : Span} : p.overlaps q = true ↔ ∃ x, p.Mem x ∧ q.Mem x := by
  simp only [Span.overlaps, Bool.and_eq_true, decide_eq_true_eq]
  constructor
  · intro h
    exact ⟨max p.start q.start, by rw [Span.Mem]; omega, by rw [Span.Mem]; omega⟩
  · rintro ⟨x, hp, hq⟩
    omega

theorem Span.overlaps_eq_false {p q : Span} (h : ∀ x, p.Mem x → ¬q.Mem x) : p.overlaps q = false := by
  rw [← Bool.not_eq_true, Span.overlaps_iff]
  rintro ⟨x, hp, hq⟩
  exact h x hp hq

/-- The bytes of a copy are those the source held before it (R98). -/
theorem read_memWrite_memRead {m : Memory} (h : m.wf = true) (dst src : Nat) {n i : Nat} (hi : i < n) :
    (memWrite m dst (memRead m src n)).read (dst + i) = m.read (src + i) := by
  rw [read_memWrite_at h _ (by rwa [memRead_length]), memRead_getElem]

/-- Settles O26: a length that fits its field is below the check's upper bound. -/
theorem cpbytesCopiesBytes : Obligations.CpbytesCopiesBytes := by
  unfold Obligations.CpbytesCopiesBytes
  intro a b aPos bPos len s hfits
  have hmax : len ≤ 2 ^ 64 - 1 := by
    simp only [Instr.WellFormed, Instr.wf, Bool.and_eq_true, posWf_iff] at hfits
    omega
  refine ⟨rfl, fun hlen => exec_of_check_some (e := .invalidLength) ?_,
    fun hlen hbounds => exec_of_check_some (e := .outOfBounds) ?_, fun hwf hlen ha hb haEnd hbEnd hdisjoint =>
    ⟨_, exec_of_check_none (checkCopyBytes_eq_none.mpr ⟨checkBytes_eq_none.mpr ⟨hlen, hmax, ha, haEnd⟩,
        checkBytes_eq_none.mpr ⟨hlen, hmax, hb, hbEnd⟩⟩) (Span.overlaps_eq_false hdisjoint),
      fun _ hi => read_memWrite_memRead hwf _ _ hi,
      fun _ hx => read_memWrite_outside hwf (by rwa [memRead_length])⟩⟩
  · rw [commandCheck, checkCopyBytes_eq, if_pos (.inl hlen)]
  · rw [commandCheck, checkCopyBytes_eq, if_neg (by omega), if_pos (by omega)]

/-! ### `ADVANCE` (R99) -/

/-- Settles O27: both the echoed position and a sum that passes the check fit the 64-bit field. -/
theorem advanceAddsPositions : Obligations.AdvanceAddsPositions := by
  unfold Obligations.AdvanceAddsPositions
  intro aPos len s hi
  refine ⟨rfl, fun hlarge => ⟨_, exec_of_check_some (e := .outOfBounds) ?_, ?_⟩, fun hsum =>
    ⟨_, exec_of_check_none (checkAdvance_eq_none.mpr hsum) rfl, Nat.mod_eq_of_lt hsum⟩⟩
  · rw [commandCheck, checkAdvance_eq, if_pos hlarge]
  · simp only [Instr.WellFormed, Instr.wf, Bool.and_eq_true, posWf_iff] at hi
    exact Nat.mod_eq_of_lt hi.1

end Sys2Proof.Machine

/-! PROOF. The obligations of `41_bit_address_algebra.md`: O28 to O30, with the lemmas they rest on. -/

namespace Sys2Proof.Machine

/-! ### A field fills its container between the offset and the shift (R113 to R115, R120, R123) -/

theorem offset_lt (bit : Nat) : offset bit < 8 := by
  rw [offset_eq]
  exact Nat.mod_lt _ (by decide)

theorem shiftAmount_lt (bit len : Nat) : shiftAmount bit len < 8 := Nat.lt_succ_of_le (Nat.sub_le ..)

/-- Seven bits past the end of a field is one byte past its last bit. -/
theorem offset_add_seven (bit : Nat) {len : Nat} (hlen : 1 ≤ len) :
    offset (bit + len + 7) = offset (bit + len - 1) := by
  rw [show bit + len + 7 = 8 * 1 + (bit + len - 1) by omega, offset_add_bytes]

theorem bitsInLastByte_add_shiftAmount (bit len : Nat) : bitsInLastByte bit len + shiftAmount bit len = 8 := by
  have := offset_lt (bit + len + 7)
  rw [bitsInLastByte, shiftAmount]
  omega

/-- The bits above the field, the field and the bits below it make up the covering bytes. -/
theorem offset_add_len_add_shiftAmount (bit : Nat) {len : Nat} (hlen : 1 ≤ len) :
    offset bit + len + shiftAmount bit len = 8 * involvedBytes bit len := by
  rw [offset_eq, shiftAmount_eq, involvedBytes_eq]
  omega

theorem mask_lt (len : Nat) : mask len < 2 ^ len := Nat.sub_lt (Nat.two_pow_pos len) Nat.one_pos

theorem mask_shiftLeft_lt (bit : Nat) {len : Nat} (hlen : 1 ≤ len) :
    mask len <<< shiftAmount bit len < 2 ^ (8 * involvedBytes bit len) :=
  calc mask len <<< shiftAmount bit len
      < 2 ^ (len + shiftAmount bit len) := Nat.shiftLeft_lt (mask_lt len)
    _ ≤ 2 ^ (8 * involvedBytes bit len) := by
      rw [← offset_add_len_add_shiftAmount bit hlen]
      exact Nat.pow_le_pow_right (by decide) (by omega)

/-- Where a bit of the field stands in the number of its covering bytes: a fixed-width read takes its digits there. -/
theorem coveringBytes_testBit (m : Memory) (base bit : Nat) {len i : Nat} (hi : i < len) :
    (readBytesBe m base (addr bit) (involvedBytes bit len)).testBit (shiftAmount bit len + len - 1 - i) =
      bitAt m base (bit + i) := by
  have hread := readFixed_testBit m base bit len (len - 1 - i) (by omega)
  have hin : len - 1 - i < len := by omega
  rw [readFixed, Nat.testBit_and, Nat.testBit_shiftRight, mask_testBit, decide_eq_true hin, Bool.and_true,
    Bool.true_and] at hread
  rwa [show shiftAmount bit len + len - 1 - i = shiftAmount bit len + (len - 1 - i) by omega,
    show bit + i = bit + len - 1 - (len - 1 - i) by omega]

theorem shiftRight_and_one (n j : Nat) : (n >>> j) &&& 1 = (n.testBit j).toNat := by
  rw [Nat.toNat_testBit, Nat.and_one_is_mod, Nat.shiftRight_eq_div_pow]

/-- Settles O30: offset, field and shift add up to the container, and a fixed-width read takes its digits there. -/
theorem fieldFitsItsContainer : Obligations.FieldFitsItsContainer := by
  unfold Obligations.FieldFitsItsContainer
  intro bit len hlen
  have hoffset := offset_add_seven bit hlen
  refine ⟨hoffset, by rw [bitsInLastByte, hoffset], by rw [shiftAmount, hoffset],
    bitsInLastByte_add_shiftAmount bit len, offset_add_len_add_shiftAmount bit hlen, mask_shiftLeft_lt bit hlen,
    fun m base i hi => ?_⟩
  rw [shiftRight_and_one, coveringBytes_testBit m base bit hi, membit_eq]

/-! ### How many bytes a field involves (R119, R121) -/

theorem addr_last_bit (bit : Nat) {len : Nat} (hlen : 1 ≤ len) :
    addr (bit + len - 1) + 1 = addr bit + involvedBytes bit len := by
  rw [addr_add_involvedBytes bit hlen, addr_eq]
  omega

/-- Settles O28: the container is the field and at most 7 bits on either side of it. -/
theorem involvedByteCountRange : Obligations.InvolvedByteCountRange := by
  unfold Obligations.InvolvedByteCountRange
  intro bit len hlen
  have hlast := addr_last_bit bit hlen
  have hfill := offset_add_len_add_shiftAmount bit hlen
  have hoffset := offset_lt bit
  have hshift := shiftAmount_lt bit len
  exact ⟨by omega, fun hmax => ⟨by omega, by omega, by omega⟩, by omega⟩

/-! ### The 9-byte split (R122) -/

/-- A field that ends with byte `k` of its container involves `k` bytes and is not shifted. -/
theorem involvedBytes_shiftAmount_of_byte_end {bit len k : Nat} (hlen : 1 ≤ len) (hend : offset bit + len = 8 * k) :
    involvedBytes bit len = k ∧ shiftAmount bit len = 0 := by
  have hfill := offset_add_len_add_shiftAmount bit hlen
  have hshift := shiftAmount_lt bit len
  omega

/-- A field of at most 8 bits that starts a byte involves that byte alone and leaves the rest of it below. -/
theorem involvedBytes_shiftAmount_of_byte_start {bit len : Nat} (hlen : 1 ≤ len) (hmax : len ≤ 8)
    (hstart : offset bit = 0) : involvedBytes bit len = 1 ∧ shiftAmount bit len = 8 - len := by
  have hfill := offset_add_len_add_shiftAmount bit hlen
  have hshift := shiftAmount_lt bit len
  omega

/-- The bits of a 9-byte field in its last byte are those past its first 8 bytes. -/
theorem bitsInLastByte_of_nine {bit len : Nat} (hlen : 1 ≤ len) (hnine : involvedBytes bit len = 9) :
    offset bit + len = 64 + bitsInLastByte bit len := by
  have hfill := offset_add_len_add_shiftAmount bit hlen
  have hlast := bitsInLastByte_add_shiftAmount bit len
  omega

/-- Settles O29: the leading part ends with byte 8, so the trailing part starts byte 9. -/
theorem nineByteSplitIsWellFormed : Obligations.NineByteSplitIsWellFormed := by
  unfold Obligations.NineByteSplitIsWellFormed
  intro bit len hlen hmax hnine
  have hlast := bitsInLastByte_of_nine hlen hnine
  have hlastPos : 1 ≤ bitsInLastByte bit len := Nat.le_add_right ..
  have hoffset := offset_lt bit
  have hleadEnd : offset bit + (len - bitsInLastByte bit len) = 8 * 8 := by omega
  have htrailStart : offset (bit + (len - bitsInLastByte bit len)) = 0 := by
    have hbit := eight_mul_addr_add_offset bit
    rw [show bit + (len - bitsInLastByte bit len) = 8 * (addr bit + 8) + 0 by omega, offset_add_bytes]
    rfl
  obtain ⟨htrailBytes, htrailShift⟩ :=
    involvedBytes_shiftAmount_of_byte_start hlastPos (by omega) htrailStart
  exact ⟨_, _, rfl, rfl, ⟨hlastPos, by omega, by omega⟩, ⟨by omega, by omega, by omega⟩,
    involvedBytes_shiftAmount_of_byte_end (by omega) hleadEnd, ⟨htrailStart, htrailBytes⟩, htrailShift⟩

end Sys2Proof.Machine

/-! PROOF. The obligations of `42_bitfield_extractor.md`: O31 to O34, with the lemmas they rest on. -/

namespace Sys2Proof.Machine

/-! ### The read engine returns the field value (R131 to R133, R137) -/

theorem readFixed_eq_fieldval (m : Memory) (base bit : Nat) {len : Nat} (hlen : 1 ≤ len) :
    readFixed m base bit len = fieldval m base bit len := by
  apply Nat.eq_of_testBit_eq
  intro t
  rw [readFixed_testBit m base bit len t hlen, fieldval_testBit]

/-- A field cut in two: the leading part's digits stand above the trailing part's. -/
theorem fieldval_add (m : Memory) (base bit lead last : Nat) :
    fieldval m base bit (lead + last) =
      fieldval m base bit lead * 2 ^ last + fieldval m base (bit + lead) last := by
  induction last with
  | zero => simp [fieldval]
  | succ last ih => rw [← Nat.add_assoc, fieldval, fieldval, ih, pow_succ, Nat.add_assoc bit]; ring

theorem one_le_bitsInLastByte (bit len : Nat) : 1 ≤ bitsInLastByte bit len := Nat.le_add_right ..

theorem readSplit9_eq_fieldval (m : Memory) (base bit : Nat) {len : Nat} (hlast : bitsInLastByte bit len < len) :
    readSplit9 m base bit len = fieldval m base bit len := by
  have hlead : len - bitsInLastByte bit len + bitsInLastByte bit len = len := Nat.sub_add_cancel hlast.le
  calc readSplit9 m base bit len
      = fieldval m base bit (len - bitsInLastByte bit len) <<< bitsInLastByte bit len |||
          fieldval m base (bit + (len - bitsInLastByte bit len)) (bitsInLastByte bit len) := by
        rw [readSplit9, readFixed_eq_fieldval _ _ _ (Nat.sub_pos_of_lt hlast),
          readFixed_eq_fieldval _ _ _ (one_le_bitsInLastByte bit len)]
    _ = fieldval m base bit len := by
        rw [← Nat.shiftLeft_add_eq_or_of_lt (fieldval_lt ..), Nat.shiftLeft_eq, ← fieldval_add, hlead]

theorem readBits_eq_fieldval (m : Memory) (base bit : Nat) {len : Nat} (hlen : 1 ≤ len) (hmax : len ≤ 64) :
    readBits m base bit len = fieldval m base bit len := by
  rw [readBits]
  split
  case isTrue => exact readFixed_eq_fieldval m base bit hlen
  case isFalse hk =>
    have hfill := offset_add_len_add_shiftAmount bit hlen
    have hlast := bitsInLastByte_add_shiftAmount bit len
    have hoffset := offset_lt bit
    exact readSplit9_eq_fieldval m base bit (by omega)

/-- Settles O31: one fixed-width read up to 8 bytes, and the two halves of the 9-byte split put together. -/
theorem readBitsIsFieldValue : Obligations.ReadBitsIsFieldValue := by
  unfold Obligations.ReadBitsIsFieldValue
  intro m base bit len hlen hmax
  exact readBits_eq_fieldval m base bit hlen hmax

/-! ### The commands of one buffer and 1 to 64 bits (R134 to R136) -/

/-- The two errors of a command whose check is `check_bits`; the cursor it echoes is its own. -/
theorem exec_bitAccess_errors {i : Instr} {a : Buffer} {aPos len : Nat}
    (hcheck : ∀ memBytes, commandCheck memBytes i = checkBits memBytes a aPos len) (s : State) :
    (len = 0 ∨ 64 < len → exec i s = .next (s.withRsp ⟨.invalidLength, 0, BitVec.ofNat 64 (echoPos i)⟩)) ∧
    (1 ≤ len → len ≤ 64 → s.memBytes < a.base + a.nbytes ∨ 8 * a.nbytes < aPos + len →
      exec i s = .next (s.withRsp ⟨.outOfBounds, 0, BitVec.ofNat 64 (echoPos i)⟩)) := by
  refine ⟨fun hlen => exec_of_check_some (e := .invalidLength) ?_,
    fun hlo hhi hbounds => exec_of_check_some (e := .outOfBounds) ?_⟩
  · rw [hcheck, checkBits_eq, if_pos hlen]
  · rw [hcheck, checkBits_eq, if_neg (by omega), if_pos hbounds]

/-- A field of at most 64 bits fits the 64-bit value field. -/
theorem toNat_ofNat_fieldval (m : Memory) (base bit : Nat) {len : Nat} (hmax : len ≤ 64) :
    (BitVec.ofNat 64 (fieldval m base bit len)).toNat = fieldval m base bit len :=
  Nat.mod_eq_of_lt ((fieldval_lt m base bit len).trans_le (Nat.pow_le_pow_right (by decide) hmax))

/-- What the engine returns once the checks have passed. -/
theorem readBits_of_check {a : Buffer} {aPos len memBytes : Nat} {m : Memory}
    (hc : checkBits memBytes a aPos len = none) : readBits m a.base aPos len = fieldval m a.base aPos len := by
  obtain ⟨hlen, hmax, -, -⟩ := checkBits_eq_none.mp hc
  exact readBits_eq_fieldval m a.base aPos hlen hmax

theorem exec_rdbits_of_check {a : Buffer} {aPos len : Nat} {s : State}
    (hc : checkBits s.memBytes a aPos len = none) :
    exec (.rdbits a aPos len) s =
      .next (s.withRsp ⟨.ok, BitVec.ofNat 64 (fieldval s.mem a.base aPos len), 0⟩) := by
  rw [← readBits_of_check hc]
  exact exec_of_check_none hc rfl

theorem exec_rdbitsInc_of_check {a : Buffer} {aPos len : Nat} {s : State}
    (hc : checkBits s.memBytes a aPos len = none) :
    exec (.rdbitsInc a aPos len) s = .next (s.withRsp
      ⟨.ok, BitVec.ofNat 64 (fieldval s.mem a.base aPos len), BitVec.ofNat 64 (aPos + len)⟩) := by
  rw [← readBits_of_check hc]
  exact exec_of_check_none hc rfl

/-- Settles O32: the checks of one field, then a value that the 64-bit field holds whole. -/
theorem rdbitsReadsField : Obligations.RdbitsReadsField := by
  unfold Obligations.RdbitsReadsField
  intro a aPos len s
  obtain ⟨hlength, hbounds⟩ := exec_bitAccess_errors (i := .rdbits a aPos len) (fun _ => rfl) s
  exact ⟨rfl, hlength, hbounds, fun hlo hhi hbuf hend =>
    ⟨_, exec_rdbits_of_check (checkBits_eq_none.mpr ⟨hlo, hhi, hbuf, hend⟩), toNat_ofNat_fieldval _ _ _ hhi⟩⟩

/-- Settles O33: as O32; the echoed cursor fits its field, and so does a sum that passed the check. -/
theorem rdbitsIncReadsFieldAndAdvances : Obligations.RdbitsIncReadsFieldAndAdvances := by
  unfold Obligations.RdbitsIncReadsFieldAndAdvances
  intro a aPos len s hi
  obtain ⟨hlength, hbounds⟩ := exec_bitAccess_errors (i := .rdbitsInc a aPos len) (fun _ => rfl) s
  have hecho : (BitVec.ofNat 64 aPos).toNat = aPos := by
    simp only [Instr.WellFormed, Instr.wf, Bool.and_eq_true, posWf_iff] at hi
    exact Nat.mod_eq_of_lt hi.1.2
  refine ⟨rfl, fun hlen => ⟨_, hlength hlen, hecho⟩, fun hlo hhi hout => ⟨_, hbounds hlo hhi hout, hecho⟩,
    fun hlo hhi hbuf hend => ?_⟩
  have hc : checkBits s.memBytes a aPos len = none := checkBits_eq_none.mpr ⟨hlo, hhi, hbuf, hend⟩
  exact ⟨_, _, exec_rdbitsInc_of_check hc, toNat_ofNat_fieldval _ _ _ hhi, Nat.mod_eq_of_lt (okNextPos_lt hi hc)⟩

/-! ### A chain of reads moves its cursor by the lengths (R138) -/

/-- The fields of a chain of reads lie one after the other from `pos` in a buffer that exists, each of a legal length. -/
structure ChainFits (memBytes : Nat) (a : Buffer) (pos : Nat) (lens : List Nat) : Prop where
  descriptor : a.base + a.nbytes ≤ memBytes
  lengths : ∀ len ∈ lens, 1 ≤ len ∧ len ≤ 64
  inBuffer : pos + lens.sum ≤ 8 * a.nbytes

theorem ChainFits.head {memBytes pos len : Nat} {a : Buffer} {lens : List Nat}
    (h : ChainFits memBytes a pos (len :: lens)) : checkBits memBytes a pos len = none := by
  obtain ⟨hlo, hhi⟩ := h.lengths len List.mem_cons_self
  have hend := h.inBuffer
  rw [List.sum_cons] at hend
  exact checkBits_eq_none.mpr ⟨hlo, hhi, h.descriptor, by omega⟩

theorem ChainFits.tail {memBytes pos len : Nat} {a : Buffer} {lens : List Nat}
    (h : ChainFits memBytes a pos (len :: lens)) : ChainFits memBytes a (pos + len) lens where
  descriptor := h.descriptor
  lengths l hl := h.lengths l (List.mem_cons_of_mem len hl)
  inBuffer := by have hend := h.inBuffer; rwa [List.sum_cons, ← Nat.add_assoc] at hend

/-- A position in the largest buffer a descriptor can name is far below `2^64`. -/
theorem toNat_ofNat_position {a : Buffer} {pos : Nat} (ha : a.wf = true) (hpos : pos ≤ 8 * a.nbytes) :
    (BitVec.ofNat 64 pos).toNat = pos := by
  obtain ⟨-, hnbytes⟩ := (Buffer.wf_iff a).mp ha
  exact Nat.mod_eq_of_lt (by omega)

@[simp] theorem withRsp_rsp (s : State) (r : Response) : (s.withRsp r).rsp = r := rfl

theorem rdbitsChain_cons {a : Buffer} {pos len : Nat} {lens : List Nat} {s t : State}
    (h : exec (.rdbits a pos len) s = .next t) :
    rdbitsChain a pos (len :: lens) s = t.rsp.value :: rdbitsChain a (pos + len) lens t := by
  rw [rdbitsChain, h]

theorem rdbitsIncChain_cons {a : Buffer} {pos len : Nat} {lens : List Nat} {s t : State}
    (h : exec (.rdbitsInc a pos len) s = .next t) :
    rdbitsIncChain a pos (len :: lens) s = t.rsp.value :: rdbitsIncChain a t.rsp.nextPos.toNat lens t := by
  rw [rdbitsIncChain, h]

/-- The values of a chain of reads, as fields of one memory. -/
def chainValues (m : Memory) (base : Nat) : Nat → List Nat → List Word64
  | _, [] => []
  | pos, len :: lens => BitVec.ofNat 64 (fieldval m base pos len) :: chainValues m base (pos + len) lens

@[simp] theorem chainValues_length (m : Memory) (base pos : Nat) (lens : List Nat) :
    (chainValues m base pos lens).length = lens.length := by
  induction lens generalizing pos with
  | nil => rfl
  | cons len lens ih => rw [chainValues, List.length_cons, ih, List.length_cons]

/-- A read changes the response alone, so the whole chain reads the memory it started from. -/
theorem rdbitsChain_eq_chainValues {a : Buffer} {pos : Nat} {lens : List Nat} {s : State}
    (h : ChainFits s.memBytes a pos lens) : rdbitsChain a pos lens s = chainValues s.mem a.base pos lens := by
  induction lens generalizing pos s with
  | nil => rfl
  | cons len lens ih =>
    rw [rdbitsChain_cons (exec_rdbits_of_check h.head), ih (s := s.withRsp _) h.tail]
    rfl

/-- As `rdbitsChain_eq_chainValues`: the cursor each command answers is the position added up by hand. -/
theorem rdbitsIncChain_eq_chainValues {a : Buffer} {pos : Nat} {lens : List Nat} {s : State} (ha : a.wf = true)
    (h : ChainFits s.memBytes a pos lens) : rdbitsIncChain a pos lens s = chainValues s.mem a.base pos lens := by
  induction lens generalizing pos s with
  | nil => rfl
  | cons len lens ih =>
    have hcursor : (BitVec.ofNat 64 (pos + len)).toNat = pos + len :=
      toNat_ofNat_position ha (le_of_add_le_left h.tail.inBuffer)
    rw [rdbitsIncChain_cons (exec_rdbitsInc_of_check h.head), withRsp_rsp, hcursor, ih (s := s.withRsp _) h.tail]
    rfl

/-- Settles O34, by induction on the lengths: either chain reads the fields one after the other. -/
theorem cursorChainEqualsDirectReads : Obligations.CursorChainEqualsDirectReads := by
  unfold Obligations.CursorChainEqualsDirectReads
  intro a pos lens s ha hbuf hlens hend
  have h : ChainFits s.memBytes a pos lens := ⟨hbuf, hlens, hend⟩
  rw [rdbitsIncChain_eq_chainValues ha h, rdbitsChain_eq_chainValues h]
  exact ⟨rfl, chainValues_length ..⟩

end Sys2Proof.Machine

/-! PROOF. The obligations of `43_bitfield_inserter.md`: O37 to O42, with the lemmas they rest on. -/

namespace Sys2Proof.Machine

/-! ### The write engine sets exactly the field (R151 to R153, R157) -/

/-- The two halves of the split write one field: the leading half's digits stand above the trailing half's. -/
theorem bitAt_writeSplit9 {m : Memory} (h : m.wf = true) (base bit v b : Nat) {len : Nat}
    (hlast : bitsInLastByte bit len < len) :
    bitAt (writeSplit9 m base bit len v) base b =
      if bit ≤ b ∧ b < bit + len then v.testBit (bit + len - 1 - b) else bitAt m base b := by
  have hlastPos := one_le_bitsInLastByte bit len
  rw [writeSplit9, bitAt_writeFixed (writeFixed_wf h ..) _ _ _ _ _ hlastPos,
    bitAt_writeFixed h _ _ _ _ _ (Nat.sub_pos_of_lt hlast)]
  generalize bitsInLastByte bit len = last at *
  by_cases hin : bit ≤ b ∧ b < bit + len
  · rw [if_pos hin]
    by_cases htrail : bit + (len - last) ≤ b
    · have hdigit : bit + (len - last) + last - 1 - b = bit + len - 1 - b := by omega
      have hlt : bit + len - 1 - b < len ∧ bit + len - 1 - b < last := by omega
      rw [if_pos (by omega), hdigit, Nat.testBit_and, Nat.testBit_and, mask_testBit, mask_testBit,
        decide_eq_true hlt.1, decide_eq_true hlt.2, Bool.and_true, Bool.and_true]
    · have hdigit : last + (bit + (len - last) - 1 - b) = bit + len - 1 - b := by omega
      have hlt : bit + len - 1 - b < len := by omega
      rw [if_neg (by omega), if_pos (by omega), Nat.testBit_shiftRight, hdigit, Nat.testBit_and, mask_testBit,
        decide_eq_true hlt, Bool.and_true]
  · rw [if_neg hin, if_neg (by omega), if_neg (by omega)]

/-- Everything `write_bits` does to the memory bits of the buffer (R157). -/
theorem bitAt_writeBits {m : Memory} (h : m.wf = true) (base bit v b : Nat) {len : Nat} (hlen : 1 ≤ len)
    (hmax : len ≤ 64) :
    bitAt (writeBits m base bit len v) base b =
      if bit ≤ b ∧ b < bit + len then v.testBit (bit + len - 1 - b) else bitAt m base b := by
  rw [writeBits]
  split
  case isTrue => exact bitAt_writeFixed h base bit len v b hlen
  case isFalse hk =>
    have hfill := offset_add_len_add_shiftAmount bit hlen
    have hlast := bitsInLastByte_add_shiftAmount bit len
    have hoffset := offset_lt bit
    exact bitAt_writeSplit9 h base bit v b (by omega)

theorem fieldWritten_writeBits {m : Memory} (h : m.wf = true) (base bit value : Nat) {len : Nat} (hlen : 1 ≤ len)
    (hmax : len ≤ 64) : FieldWritten m (writeBits m base bit len value) base bit len value where
  field i hi := by
    rw [membit_eq, bitAt_writeBits h _ _ _ _ hlen hmax, if_pos (by omega), shiftRight_and_one,
      show bit + len - 1 - (bit + i) = len - 1 - i by omega]
  otherBits b hb := by rw [membit_eq, membit_eq, bitAt_writeBits h _ _ _ _ hlen hmax, if_neg (by omega)]
  otherBytes _ hx := read_writeBits_of_not_mem (a := ⟨base, 0⟩) h value hlen hmax hx

/-- Settles O37: one fixed-width write up to 8 bytes, and the two halves of the 9-byte split put together. -/
theorem writeBitsSetsExactlyTheField : Obligations.WriteBitsSetsExactlyTheField := by
  unfold Obligations.WriteBitsSetsExactlyTheField
  intro m base bit len value hwf hlen hmax
  exact fieldWritten_writeBits hwf base bit value hlen hmax

/-! ### The loop over bytes and the one update of the container (R151) -/

/-- Memory bit `b` in the big-endian number of a run of bytes that holds it (R15, R90). -/
theorem readBytesBe_testBit_bitAt (m : Memory) (base : Nat) {off n b : Nat} (hlo : off ≤ b / 8)
    (hhi : b / 8 < off + n) : (readBytesBe m base off n).testBit (8 * (off + n) - 1 - b) = bitAt m base b := by
  have hbyte : base + off + (n - 1 - (8 * (off + n) - 1 - b) / 8) = base + b / 8 := by omega
  have hpos : (8 * (off + n) - 1 - b) % 8 = 7 - b % 8 := by omega
  rw [readBytesBe_testBit m base off n _ (by omega), bitAt, hbyte, hpos]

/-- Memory bit `b` after a big-endian write of a run of bytes that holds it: the run then reads as the number (R92). -/
theorem bitAt_writeBytesBe {m : Memory} (h : m.wf = true) (base v : Nat) {off n b : Nat} (hlo : off ≤ b / 8)
    (hhi : b / 8 < off + n) :
    bitAt (writeBytesBe m base off n v) base b = v.testBit (8 * (off + n) - 1 - b) := by
  have hpow : 256 ^ n = 2 ^ (8 * n) := (pow_mul 2 8 n).symm
  have hlt : 8 * (off + n) - 1 - b < 8 * n := by omega
  rw [← readBytesBe_testBit_bitAt _ _ hlo hhi, readBytesBe, memRead_writeBytesBe h, be_beBytes, hpow,
    Nat.testBit_mod_two_pow, decide_eq_true hlt, Bool.true_and]

/-- The one line of R151 on the container, digit by digit: the `len` digits from `s` up are the value's, the others the
old ones. -/
theorem containerUpdate_testBit {old value len s n t : Nat} (hfits : mask len <<< s < 2 ^ n) (ht : t < n) :
    ((old &&& (2 ^ n - 1 - mask len <<< s)) ||| ((value &&& mask len) <<< s)).testBit t =
      if s ≤ t ∧ t < s + len then value.testBit (t - s) else old.testBit t := by
  rw [Nat.sub_right_comm, Nat.sub_sub, Nat.testBit_or, Nat.testBit_and, Nat.testBit_two_pow_sub_succ hfits,
    Nat.testBit_shiftLeft, Nat.testBit_shiftLeft, Nat.testBit_and, mask_testBit]
  by_cases hs : s ≤ t
  · by_cases hlen : t < s + len
    · have hin : t - s < len := by omega
      simp [hs, hlen, hin]
    · have hout : ¬t - s < len := by omega
      simp [ht, hlen, hout]
  · simp [ht, hs]

/-- Settles O38: outside the container neither write changes a byte, and inside they agree bit by bit. -/
theorem fixedWriteIsContainerUpdate : Obligations.FixedWriteIsContainerUpdate := by
  unfold Obligations.FixedWriteIsContainerUpdate
  intro m base bit len value hwf hlen _
  refine Memory.wfFrom_ext (writeFixed_wf hwf ..) (memWrite_wf hwf ..) fun x => ?_
  by_cases hx : (bitSpan ⟨base, 0⟩ bit len).Mem x
  · obtain ⟨i, rfl⟩ : ∃ i, x = base + i := ⟨x - base, by simp only [bitSpan, Span.Mem] at hx; omega⟩
    simp only [bitSpan, Span.Mem] at hx
    refine read_eq_of_bitAt fun p hp => ?_
    have hfill := offset_add_len_add_shiftAmount bit hlen
    have hbit := eight_mul_addr_add_offset bit
    have hlo : addr bit ≤ (8 * i + p) / 8 := by omega
    have hhi : (8 * i + p) / 8 < addr bit + involvedBytes bit len := by omega
    rw [bitAt_writeFixed hwf _ _ _ _ _ hlen, bitAt_writeBytesBe hwf _ _ hlo hhi,
      containerUpdate_testBit (mask_shiftLeft_lt bit hlen) (by omega), readBytesBe_testBit_bitAt _ _ hlo hhi]
    congr 1
    · rw [eq_iff_iff]; omega
    · congr 1; omega
  · rw [read_writeFixed_outside hwf _ _ _ _ _ (by simp only [bitSpan, Span.Mem] at hx; omega)]
    exact (read_writeBytesBe_outside (a := ⟨base, 0⟩) hwf _ hx).symm

/-! ### The commands of one written field (R154 to R156) -/

/-- A command that passes the checks of `WRBITS` writes its field. -/
theorem fieldWritten_of_check {a : Buffer} {aPos len memBytes : Nat} {m : Memory} (h : m.wf = true)
    (hc : checkBits memBytes a aPos len = none) (value : Nat) :
    FieldWritten m (writeBits m a.base aPos len value) a.base aPos len value := by
  obtain ⟨hlen, hmax, -, -⟩ := checkBits_eq_none.mp hc
  exact fieldWritten_writeBits h a.base aPos value hlen hmax

/-- Settles O39: the checks of one field, then the write engine. -/
theorem wrbitsWritesField : Obligations.WrbitsWritesField := by
  unfold Obligations.WrbitsWritesField
  intro a aPos len value s
  obtain ⟨hlength, hbounds⟩ := exec_bitAccess_errors (i := .wrbits a aPos len value) (fun _ => rfl) s
  refine ⟨rfl, hlength, hbounds, fun hwf hlo hhi hbuf hend => ?_⟩
  have hc : checkBits s.memBytes a aPos len = none := checkBits_eq_none.mpr ⟨hlo, hhi, hbuf, hend⟩
  exact ⟨_, exec_of_check_none hc rfl, fieldWritten_of_check hwf hc value⟩

/-- Settles O40: as O39; the echoed cursor fits its field, and so does a sum that passed the check. -/
theorem wrbitsIncWritesFieldAndAdvances : Obligations.WrbitsIncWritesFieldAndAdvances := by
  unfold Obligations.WrbitsIncWritesFieldAndAdvances
  intro a aPos len value s hi
  obtain ⟨hlength, hbounds⟩ := exec_bitAccess_errors (i := .wrbitsInc a aPos len value) (fun _ => rfl) s
  have hecho : (BitVec.ofNat 64 aPos).toNat = aPos := by
    simp only [Instr.WellFormed, Instr.wf, Bool.and_eq_true, posWf_iff] at hi
    obtain ⟨⟨⟨-, hpos⟩, -⟩, -⟩ := hi
    exact Nat.mod_eq_of_lt hpos
  refine ⟨rfl, fun hlen => ⟨_, hlength hlen, hecho⟩, fun hlo hhi hout => ⟨_, hbounds hlo hhi hout, hecho⟩,
    fun hwf hlo hhi hbuf hend => ?_⟩
  have hc : checkBits s.memBytes a aPos len = none := checkBits_eq_none.mpr ⟨hlo, hhi, hbuf, hend⟩
  exact ⟨_, _, exec_of_check_none hc rfl, fieldWritten_of_check hwf hc value,
    Nat.mod_eq_of_lt (okNextPos_lt hi hc)⟩

/-- The write engine drops the bits of the value at and above `len` (R154). -/
theorem writeBits_and_mask (m : Memory) (base bit len value : Nat) :
    writeBits m base bit len (value &&& mask len) = writeBits m base bit len value := by
  have hmask : value &&& mask len &&& mask len = value &&& mask len := by rw [Nat.and_assoc, Nat.and_self]
  simp only [writeBits, writeFixed, writeSplit9, hmask]

/-- Settles O41: the flag written is the field of length 1 that `WRBITS` would write of the whole value. -/
theorem wrflagWritesOneBit : Obligations.WrflagWritesOneBit := by
  unfold Obligations.WrflagWritesOneBit
  intro a aPos value s
  obtain ⟨-, hbounds⟩ := exec_bitAccess_errors (i := .wrflag a aPos value) (fun _ => rfl) s
  refine ⟨rfl, hbounds le_rfl (by decide), fun hwf hbuf hend => ?_⟩
  have hc : checkBits s.memBytes a aPos 1 = none := checkBits_eq_none.mpr ⟨le_rfl, by decide, hbuf, hend⟩
  have hwritten : FieldWritten s.mem (writeBits s.mem a.base aPos 1 (value &&& 1)) a.base aPos 1 value :=
    writeBits_and_mask s.mem a.base aPos 1 value ▸ fieldWritten_of_check hwf hc value
  exact ⟨_, exec_of_check_none hc rfl, hwritten.field 0 Nat.one_pos, hwritten⟩

/-! ### Reading a written field back (R158) -/

theorem fieldval_writeBits_same {m : Memory} (h : m.wf = true) (base bit value : Nat) {len : Nat} (hlen : 1 ≤ len)
    (hmax : len ≤ 64) : fieldval (writeBits m base bit len value) base bit len = value &&& mask len := by
  apply Nat.eq_of_testBit_eq
  intro t
  rw [fieldval_testBit, bitAt_writeBits h _ _ _ _ hlen hmax, Nat.testBit_and, mask_testBit, Bool.and_comm]
  by_cases ht : t < len
  · rw [if_pos (by omega), show bit + len - 1 - (bit + len - 1 - t) = t by omega]
  · simp [ht]

theorem fieldval_writeBits_disjoint {m : Memory} (h : m.wf = true) (base value : Nat) {bit len bit' len' : Nat}
    (hlen' : 1 ≤ len') (hmax' : len' ≤ 64) (hdisjoint : bit' + len' ≤ bit ∨ bit + len ≤ bit') :
    fieldval (writeBits m base bit' len' value) base bit len = fieldval m base bit len := by
  apply Nat.eq_of_testBit_eq
  intro t
  rw [fieldval_testBit, fieldval_testBit, bitAt_writeBits h _ _ _ _ hlen' hmax']
  by_cases ht : t < len
  · rw [if_neg (by omega)]
  · simp [ht]

/-- What a `WRBITS` that answered `OK` has checked and done. -/
theorem exec_wrbits_ok {a : Buffer} {aPos len value : Nat} {s t : State}
    (hexec : exec (.wrbits a aPos len value) s = .next t) (hok : t.rsp.status = .ok) :
    checkBits s.memBytes a aPos len = none ∧ t.memBytes = s.memBytes ∧
      t.mem = writeBits s.mem a.base aPos len value := by
  obtain ⟨e, -, rfl⟩ | ⟨hc, rfl⟩ := exec_next_checked hexec
  · exact absurd hok e.status_ne_ok
  · exact ⟨hc, rfl, rfl⟩

theorem exec_rdbits_of_fieldval {a : Buffer} {aPos len v : Nat} {s : State}
    (hc : checkBits s.memBytes a aPos len = none) (hv : fieldval s.mem a.base aPos len = v) :
    ∃ w : Word64, exec (.rdbits a aPos len) s = .next (s.withRsp ⟨.ok, w, 0⟩) ∧ w.toNat = v := by
  obtain ⟨-, hmax, -, -⟩ := checkBits_eq_none.mp hc
  exact ⟨_, exec_rdbits_of_check hc, (toNat_ofNat_fieldval _ _ _ hmax).trans hv⟩

/-- Settles O42: the field holds the value after its own write, and a write of a disjoint field keeps its bits. -/
theorem fieldReadsBackAsWritten : Obligations.FieldReadsBackAsWritten := by
  unfold Obligations.FieldReadsBackAsWritten
  intro a aPos len value s t hwf hexec hok
  obtain ⟨hc, hsize, hmem⟩ := exec_wrbits_ok hexec hok
  obtain ⟨hlen, hmax, -, -⟩ := checkBits_eq_none.mp hc
  have hfirst : fieldval t.mem a.base aPos len = value &&& mask len := by
    rw [hmem, fieldval_writeBits_same hwf _ _ _ hlen hmax]
  rw [← hsize] at hc
  refine ⟨exec_rdbits_of_fieldval hc hfirst, fun bit' len' value' u hexec' hok' hdisjoint => ?_⟩
  obtain ⟨hc', hsize', hmem'⟩ := exec_wrbits_ok hexec' hok'
  obtain ⟨hlen', hmax', -, -⟩ := checkBits_eq_none.mp hc'
  refine exec_rdbits_of_fieldval (by rw [hsize', hc]) ?_
  rw [hmem', fieldval_writeBits_disjoint (exec_mem_wf hwf hexec) _ _ hlen' hmax' hdisjoint, hfirst]

end Sys2Proof.Machine

/-! PROOF. The obligations of `44_bit_copy.md`: O44 to O47, with the lemmas they rest on. -/

namespace Sys2Proof.Machine

/-! ### The copy loop ends when no bit remains (R171, R175) -/

theorem copyLoop_of_rem_zero (aBase bBase fuel : Nat) {s : State} (h : s.rem.toNat = 0) :
    State.copyLoop aBase bBase fuel s = s := by
  cases fuel with
  | zero => rfl
  | succ fuel => rw [State.copyLoop, h]; rfl

/-- The remainder after a full chunk. -/
theorem toNat_rem_copyAdvance {s : State} (hmore : 64 < s.rem.toNat) (aBase bBase : Nat) :
    (State.copyChunk aBase bBase 64 s).copyAdvance.rem.toNat = s.rem.toNat - 64 := by
  rw [copyAdvance_rem, copyChunk_rem]
  bv_omega

/-- Turns beyond those the remaining bits take do nothing: each turn that goes on takes 64 bits off the remainder. -/
theorem copyLoop_add_of_le (aBase bBase fuel more : Nat) {s : State} (h : s.rem.toNat ≤ 64 * fuel) :
    State.copyLoop aBase bBase (fuel + more) s = State.copyLoop aBase bBase fuel s := by
  have h64 : Config.chunkBits = 64 := rfl
  induction fuel generalizing s with
  | zero => exact copyLoop_of_rem_zero _ _ _ (Nat.le_zero.mp h)
  | succ fuel ih =>
    rw [Nat.add_right_comm, State.copyLoop, State.copyLoop, h64]
    split
    · next hmore => exact ih (by rw [toNat_rem_copyAdvance hmore]; omega)
    · rfl

theorem le_copyChunks (len : Nat) : len ≤ 64 * copyChunks len := by
  rw [copyChunks]; omega

/-- Settles O47: the chunks cover the length, so no bit remains after them. -/
theorem copyEndsAfterItsChunks : Obligations.CopyEndsAfterItsChunks := by
  unfold Obligations.CopyEndsAfterItsChunks
  intro s aBase aPos len bBase bPos more _
  refine copyLoop_add_of_le _ _ _ _ ?_
  rw [copyStart_rem]
  exact (Nat.mod_le ..).trans (le_copyChunks len)

/-! ### The copy loop copies the field (R170, R171) -/

/-- The loop may run from `s`: its cursors over what remains do not wrap around, and the bytes still to be written are
none of those still to be read (R51, R177). -/
structure CopyReady (a b : Buffer) (s : State) : Prop where
  wf : s.mem.wf = true
  dstEnd : s.dstCur.toNat + s.rem.toNat < 2 ^ 64
  srcEnd : s.srcCur.toNat + s.rem.toNat < 2 ^ 64
  disjoint : ∀ x, (bitSpan a s.dstCur.toNat s.rem.toNat).Mem x → ¬(bitSpan b s.srcCur.toNat s.rem.toNat).Mem x

/-- Where one chunk puts the bits it read. -/
theorem bitAt_copyChunk {s : State} (h : s.mem.wf = true) (aBase bBase d : Nat) {n : Nat} (hn : 1 ≤ n)
    (h64 : n ≤ 64) :
    bitAt (State.copyChunk aBase bBase n s).mem aBase d =
      if s.dstCur.toNat ≤ d ∧ d < s.dstCur.toNat + n then bitAt s.mem bBase (s.srcCur.toNat + (d - s.dstCur.toNat))
      else bitAt s.mem aBase d := by
  rw [copyChunk_mem s aBase bBase n hn h64, bitAt_writeBits h _ _ _ _ hn h64, readBits_eq_fieldval _ _ _ hn h64,
    fieldval_testBit]
  split
  · have hdigit : s.dstCur.toNat + n - 1 - d < n := by omega
    rw [decide_eq_true hdigit, Bool.true_and]
    congr 1
    omega
  · rfl

/-- Reading a bit looks at one byte, and that is in the span of any field the bit is in. -/
theorem bitAt_congr_of_field {m m' : Memory} {a : Buffer} {bit len p : Nat}
    (h : ∀ x, (bitSpan a bit len).Mem x → m.read x = m'.read x) (hlo : bit ≤ p) (hhi : p < bit + len) :
    bitAt m a.base p = bitAt m' a.base p := by
  rw [bitAt, bitAt, h]
  rw [bitSpan_mem_iff (by omega)]
  omega

/-- A chunk leaves the source bits still to be read as they were. -/
theorem CopyReady.bitAt_source {a b : Buffer} {s : State} (h : CopyReady a b s) {n p : Nat} (hn : 1 ≤ n)
    (h64 : n ≤ 64) (hrem : n ≤ s.rem.toNat) (hlo : s.srcCur.toNat ≤ p) (hhi : p < s.srcCur.toNat + s.rem.toNat) :
    bitAt (State.copyChunk a.base b.base n s).mem b.base p = bitAt s.mem b.base p := by
  refine bitAt_congr_of_field (fun x hx => ?_) hlo hhi
  exact read_writeBits_of_not_mem h.wf _ hn h64 fun hdst =>
    h.disjoint x (bitSpan_mem_mono hn le_rfl (by omega) hdst) hx

/-- The cursors after a full chunk do not wrap around. -/
theorem CopyReady.toNat_cursors_copyAdvance {a b : Buffer} {s : State} (h : CopyReady a b s)
    (hmore : 64 < s.rem.toNat) (aBase bBase : Nat) :
    (State.copyChunk aBase bBase 64 s).copyAdvance.dstCur.toNat = s.dstCur.toNat + 64 ∧
      (State.copyChunk aBase bBase 64 s).copyAdvance.srcCur.toNat = s.srcCur.toNat + 64 := by
  obtain ⟨-, hdstEnd, hsrcEnd, -⟩ := h
  rw [copyAdvance_dstCur, copyAdvance_srcCur, copyChunk_dstCur, copyChunk_srcCur]
  constructor <;> bv_omega

/-- The loop may go on after a full chunk: what remains lies inside what remained. -/
theorem CopyReady.advance {a b : Buffer} {s : State} (h : CopyReady a b s) (hmore : 64 < s.rem.toNat) :
    CopyReady a b (State.copyChunk a.base b.base 64 s).copyAdvance := by
  obtain ⟨hdst, hsrc⟩ := h.toNat_cursors_copyAdvance hmore a.base b.base
  have hrem := toNat_rem_copyAdvance hmore a.base b.base
  obtain ⟨hwf, hdstEnd, hsrcEnd, hdisjoint⟩ := h
  refine ⟨writeBits_wf hwf .., by omega, by omega, ?_⟩
  rw [hdst, hsrc, hrem]
  exact fun x hx hx' => hdisjoint x (bitSpan_mem_mono (by omega) (by omega) (by omega) hx)
    (bitSpan_mem_mono (by omega) (by omega) (by omega) hx')

/-- Everything the copy loop does to the bits of the destination buffer, given the turns it takes. -/
theorem CopyReady.bitAt_copyLoop {a b : Buffer} {s : State} (h : CopyReady a b s) {fuel : Nat}
    (hfuel : s.rem.toNat ≤ 64 * fuel) (d : Nat) :
    bitAt (State.copyLoop a.base b.base fuel s).mem a.base d =
      if s.dstCur.toNat ≤ d ∧ d < s.dstCur.toNat + s.rem.toNat then
        bitAt s.mem b.base (s.srcCur.toNat + (d - s.dstCur.toNat))
      else bitAt s.mem a.base d := by
  have h64 : Config.chunkBits = 64 := rfl
  induction fuel generalizing s with
  | zero => rw [if_neg (by omega)]; rfl
  | succ fuel ih =>
    rw [State.copyLoop, h64]
    split
    case isTrue hmore =>
      obtain ⟨hdst, hsrc⟩ := h.toNat_cursors_copyAdvance hmore a.base b.base
      have hrem := toNat_rem_copyAdvance hmore a.base b.base
      rw [ih (h.advance hmore) (by omega), hdst, hsrc, hrem, copyAdvance_mem]
      by_cases hrest : s.dstCur.toNat + 64 ≤ d ∧ d < s.dstCur.toNat + s.rem.toNat
      · rw [if_pos (by omega), if_pos (by omega),
          h.bitAt_source (by decide) le_rfl hmore.le (by omega) (by omega)]
        congr 1
        omega
      · rw [if_neg (by omega), bitAt_copyChunk h.wf _ _ _ (by decide) le_rfl]
        congr 1
        rw [eq_iff_iff]
        omega
    case isFalse hlast =>
      split
      case isTrue hpos => exact bitAt_copyChunk h.wf _ _ _ hpos (not_lt.mp hlast)
      case isFalse hnone => rw [if_neg (by omega)]

theorem CopyReady.bitsCopied {a b : Buffer} {s : State} (h : CopyReady a b s) {fuel : Nat}
    (hfuel : s.rem.toNat ≤ 64 * fuel) :
    BitsCopied s.mem (State.copyLoop a.base b.base fuel s).mem a.base s.dstCur.toNat s.rem.toNat b.base
      s.srcCur.toNat where
  copied i hi := by
    rw [membit_eq, membit_eq, h.bitAt_copyLoop hfuel, if_pos (by omega), Nat.add_sub_cancel_left]
  otherBits d hd := by rw [membit_eq, membit_eq, h.bitAt_copyLoop hfuel, if_neg (by omega)]
  otherBytes _ hx := read_copyLoop_outside a b.base fuel h.wf h.dstEnd hx

/-- The loop variables hold the positions and the length whole, so the loop copies that field. -/
theorem bitsCopied_copyBits {s : State} {a b : Buffer} {aPos len bPos : Nat} (h : s.mem.wf = true)
    (haEnd : aPos + len < 2 ^ 64) (hbEnd : bPos + len < 2 ^ 64)
    (hdisjoint : ∀ x, (bitSpan a aPos len).Mem x → ¬(bitSpan b bPos len).Mem x) :
    BitsCopied s.mem (s.copyBits a.base aPos len b.base bPos).mem a.base aPos len b.base bPos := by
  have hdst : (s.copyStart aPos len bPos).dstCur.toNat = aPos := Nat.mod_eq_of_lt (by omega)
  have hsrc : (s.copyStart aPos len bPos).srcCur.toNat = bPos := Nat.mod_eq_of_lt (by omega)
  have hrem : (s.copyStart aPos len bPos).rem.toNat = len := Nat.mod_eq_of_lt (by omega)
  have hready : CopyReady a b (s.copyStart aPos len bPos) :=
    ⟨h, by rwa [hdst, hrem], by rwa [hsrc, hrem], by rwa [hdst, hsrc, hrem]⟩
  have hcopied := hready.bitsCopied (fuel := copyChunks len) (by rw [hrem]; exact le_copyChunks len)
  rwa [hdst, hsrc, hrem] at hcopied

/-! ### The commands of a bit copy (R172 to R174) -/

/-- The two errors of a command whose check is `check_copy`; the position it echoes is its own. -/
theorem exec_bitCopy_errors {i : Instr} {a b : Buffer} {aPos len bPos : Nat}
    (hcheck : ∀ memBytes, commandCheck memBytes i = checkCopy memBytes a aPos b bPos len) (s : State) :
    (len = 0 → exec i s = .next (s.withRsp ⟨.invalidLength, 0, BitVec.ofNat 64 (echoPos i)⟩)) ∧
    (1 ≤ len → s.memBytes < a.base + a.nbytes ∨ s.memBytes < b.base + b.nbytes ∨ 8 * a.nbytes < aPos + len ∨
        8 * b.nbytes < bPos + len →
      exec i s = .next (s.withRsp ⟨.outOfBounds, 0, BitVec.ofNat 64 (echoPos i)⟩)) := by
  refine ⟨fun hlen => exec_of_check_some (e := .invalidLength) ?_,
    fun hlen hbounds => exec_of_check_some (e := .outOfBounds) ?_⟩
  · rw [hcheck, checkCopy_eq, if_pos hlen]
  · rw [hcheck, checkCopy_eq, if_neg (by omega), if_pos hbounds]

/-- The frame of every command as one equation (R20, R28). -/
theorem exec_next_eq_withRsp {i : Instr} {s t : State} (h : exec i s = .next t) :
    t = { s with mem := t.mem, rem := t.rem, srcCur := t.srcCur, dstCur := t.dstCur, chunk := t.chunk }.withRsp
      t.rsp := by
  obtain ⟨hsize, hhost, hbusy, hlatched, hdraws, hvalid, -⟩ := commandsChangeNothingElse i s t h
  rw [State.withRsp, ← hsize, ← hhost, ← hbusy, ← hlatched, ← hdraws, ← hvalid]

/-- A copy that passes its checks on well-formed buffers copies its field. -/
theorem bitsCopied_of_check {a b : Buffer} {aPos len bPos memBytes : Nat} {s : State} (ha : a.wf = true)
    (hb : b.wf = true) (h : s.mem.wf = true) (hc : checkCopy memBytes a aPos b bPos len = none)
    (hdisjoint : ∀ x, (bitSpan a aPos len).Mem x → ¬(bitSpan b bPos len).Mem x) :
    BitsCopied s.mem (s.copyBits a.base aPos len b.base bPos).mem a.base aPos len b.base bPos := by
  obtain ⟨-, -, -, haEnd, hbEnd⟩ := checkCopy_eq_none.mp hc
  rw [Buffer.wf_iff] at ha hb
  exact bitsCopied_copyBits h (by omega) (by omega) hdisjoint

/-- Settles O44: the checks of the two fields, then the copy loop. -/
theorem cpbitsCopiesBits : Obligations.CpbitsCopiesBits := by
  unfold Obligations.CpbitsCopiesBits
  intro a b aPos len bPos s hi
  obtain ⟨hlength, hbounds⟩ := exec_bitCopy_errors (i := .cpbits a aPos len b bPos) (fun _ => rfl) s
  simp only [Instr.WellFormed, Instr.wf, Bool.and_eq_true] at hi
  obtain ⟨⟨⟨⟨ha, -⟩, -⟩, hb⟩, -⟩ := hi
  refine ⟨rfl, hlength, hbounds, fun hwf hlen haBuf hbBuf haEnd hbEnd hdisjoint => ?_⟩
  have hc : checkCopy s.memBytes a aPos b bPos len = none :=
    checkCopy_eq_none.mpr ⟨hlen, haBuf, hbBuf, haEnd, hbEnd⟩
  have hexec := exec_of_check_none (i := .cpbits a aPos len b bPos) hc (Span.overlaps_eq_false hdisjoint)
  exact ⟨_, hexec, exec_next_eq_withRsp hexec, bitsCopied_of_check ha hb hwf hc hdisjoint⟩

/-- Settles O45: as O44; the echoed position fits its field, and so does a sum that passed the check. -/
theorem cpbitsIncCopiesBitsAndAdvancesSource : Obligations.CpbitsIncCopiesBitsAndAdvancesSource := by
  unfold Obligations.CpbitsIncCopiesBitsAndAdvancesSource
  intro a b aPos len bPos s hi
  obtain ⟨hlength, hbounds⟩ := exec_bitCopy_errors (i := .cpbitsInc a aPos len b bPos) (fun _ => rfl) s
  have hfits := hi
  simp only [Instr.WellFormed, Instr.wf, Bool.and_eq_true, posWf_iff] at hfits
  obtain ⟨⟨⟨⟨ha, -⟩, -⟩, hb⟩, hpos⟩ := hfits
  have hecho : (BitVec.ofNat 64 bPos).toNat = bPos := Nat.mod_eq_of_lt hpos
  refine ⟨rfl, fun hlen => ⟨_, hlength hlen, hecho⟩, fun hlen hout => ⟨_, hbounds hlen hout, hecho⟩,
    fun hwf hlen haBuf hbBuf haEnd hbEnd hdisjoint => ?_⟩
  have hc : checkCopy s.memBytes a aPos b bPos len = none :=
    checkCopy_eq_none.mpr ⟨hlen, haBuf, hbBuf, haEnd, hbEnd⟩
  have hexec := exec_of_check_none (i := .cpbitsInc a aPos len b bPos) hc (Span.overlaps_eq_false hdisjoint)
  exact ⟨_, _, hexec, exec_next_eq_withRsp hexec, Nat.mod_eq_of_lt (okNextPos_lt hi hc),
    bitsCopied_of_check ha hb hwf hc hdisjoint⟩

/-! ### What is refused (R98, R177, U3) -/

theorem expectedStatus_eq_ok_iff {memBytes : Nat} {i : Instr} :
    expectedStatus memBytes i = .ok ↔
      lengthInvalid i = false ∧ descriptorInvalid memBytes i = false ∧ footprintOutside i = false := by
  rw [expectedStatus]
  cases lengthInvalid i <;> cases descriptorInvalid memBytes i <;> cases footprintOutside i <;> decide

/-- The checks a command runs pass exactly when none of the tables of R191 to R193 names an error. -/
theorem commandCheck_eq_none_iff {memBytes : Nat} {i : Instr} (hi : i.WellFormed) :
    commandCheck memBytes i = none ↔ expectedStatus memBytes i = .ok := by
  have h8 : Config.maxN = 8 := rfl
  rw [expectedStatus_eq_ok_iff]
  simp only [commandCheck, lengthInvalid, descriptorInvalid, descriptors, footprintOutside]
  cases i with
  | rdbits | rdbitsInc | wrbits | wrbitsInc | wrflag =>
    simp only [checkBits_eq_none, List.any_cons, List.any_nil, Bool.or_false, Bool.or_eq_false_iff,
      beq_eq_false_iff_ne, decide_eq_false_iff_not, true_and]
    omega
  | cpbits | cpbitsInc =>
    simp only [checkCopy_eq_none, List.any_cons, List.any_nil, Bool.or_false, Bool.or_eq_false_iff,
      beq_eq_false_iff_ne, decide_eq_false_iff_not]
    omega
  | rdbytesBe | rdbytesLe | wrbytesBe | wrbytesLe =>
    simp only [checkBytes_eq_none, h8, List.any_cons, List.any_nil, Bool.or_false, Bool.or_eq_false_iff,
      beq_eq_false_iff_ne, decide_eq_false_iff_not]
    omega
  | cpbytes =>
    simp only [Instr.WellFormed, Instr.wf, Bool.and_eq_true, posWf_iff] at hi
    simp only [checkCopyBytes_eq_none, checkBytes_eq_none, List.any_cons, List.any_nil, Bool.or_false,
      Bool.or_eq_false_iff, beq_eq_false_iff_ne, decide_eq_false_iff_not]
    omega
  | advance => simp [checkAdvance_eq_none]

theorem exec_eq_refused_iff {i : Instr} {s : State} {r : Refusal} :
    exec i s = .refused r ↔
      r = .overlappingCopy ∧ commandCheck s.memBytes i = none ∧ copyOverlaps i = true := by
  obtain ⟨e, hc, he⟩ | ⟨hc, ho, he⟩ | ⟨hc, ho, he⟩ := exec_cases i s <;> rw [he, hc]
  · simp
  · simp [ho, eq_comm]
  · simp [ho]

theorem copyOverlaps_iff {i : Instr} :
    copyOverlaps i = true ↔ isCopy i = true ∧ ∃ x, (readSpan i).Mem x ∧ (writeSpan i).Mem x := by
  rw [copyOverlaps, Bool.and_eq_true, Span.overlaps_iff]
  simp only [and_comm]

/-- Settles O46: the one refusal of `exec` stands behind the checks and the test for a common byte. -/
theorem refusalsAreOverlappingCopies : Obligations.RefusalsAreOverlappingCopies := by
  unfold Obligations.RefusalsAreOverlappingCopies
  intro i s r hi
  rw [exec_eq_refused_iff, commandCheck_eq_none_iff hi, copyOverlaps_iff]
  tauto

end Sys2Proof.Machine

/-! PROOF. The obligations of `60_exceptions.md`: O8, O11, O48, O49 and O54, with the lemmas they rest on. -/

namespace Sys2Proof.Machine

/-! ### The idle unit and the reserved opcodes (R194, R202) -/

/-- Settles O11. -/
theorem idleUnitDoesNothing : Obligations.IdleUnitDoesNothing := by
  unfold Obligations.IdleUnitDoesNothing
  exact fun _ => step_idle

theorem runFrame_of_reject {f : Frame} {r : DecodeReject} (h : decode f = .error r) (s : State) :
    runFrame f s = .next (s.raise .illegalOp 0) := by
  rw [runFrame, h]

/-- Settles O8: the decoder rejects the frame by its opcode alone. -/
theorem reservedOpcodeAnswersIllegalOp : Obligations.ReservedOpcodeAnswersIllegalOp := by
  unfold Obligations.ReservedOpcodeAnswersIllegalOp
  intro s f rest hhost hbusy hop
  have hreject : decode f = .error (.illegalOp f.fields.op) := decodeFields_of_reserved hop
  rw [step_command hhost hbusy, runFrame_of_reject hreject]
  rfl

/-! ### The checks a command runs are the tables in the order of R195 (R191 to R193) -/

/-- Everything the check of a command can answer, in terms of the tables. That `CPBYTES` checks one buffer whole before
the other makes no difference, nor does its length bound, which every length that fits its field meets (R100). -/
theorem commandCheck_eq_tables {i : Instr} (hi : i.WellFormed) (memBytes : Nat) :
    commandCheck memBytes i =
      if lengthInvalid i = true then some .invalidLength
      else if descriptorInvalid memBytes i = true ∨ footprintOutside i = true then some .outOfBounds
      else none := by
  have h8 : Config.maxN = 8 := rfl
  cases i <;> simp only [commandCheck, lengthInvalid, descriptorInvalid, descriptors, footprintOutside,
    List.any_cons, List.any_nil, Bool.or_false, Bool.or_eq_true, beq_iff_eq, decide_eq_true_eq]
  case rdbits | rdbitsInc | wrbits | wrbitsInc => rw [checkBits_eq]
  case wrflag => rw [checkBits_eq, if_neg (by omega), if_neg Bool.false_ne_true]
  case cpbits | cpbitsInc => rw [checkCopy_eq]; simp only [or_assoc]
  case rdbytesBe | rdbytesLe | wrbytesBe | wrbytesLe => simp only [checkBytes_eq, h8, Nat.lt_one_iff]
  case cpbytes a aPos b bPos len =>
    simp only [Instr.WellFormed, Instr.wf, Bool.and_eq_true, posWf_iff] at hi
    have hlen : ¬2 ^ 64 - 1 < len := by omega
    simp only [checkCopyBytes_eq, hlen, or_false, or_assoc, or_left_comm]
  case advance => simp only [checkAdvance_eq, Bool.false_eq_true, if_false, false_or]

/-- The error a check reports is the first that applies. -/
theorem expectedStatus_of_check_some {i : Instr} (hi : i.WellFormed) {memBytes : Nat} {e : Error}
    (hc : commandCheck memBytes i = some e) : expectedStatus memBytes i = e.status := by
  rw [commandCheck_eq_tables hi] at hc
  rw [expectedStatus]
  split at hc
  case isTrue hlength => cases hc; rw [if_pos hlength]; rfl
  case isFalse hlength =>
    rw [if_neg hlength]
    split at hc
    case isTrue hbounds =>
      cases hc
      obtain hdescriptor | hfootprint := hbounds
      · rw [if_pos hdescriptor]; rfl
      · rw [if_pos hfootprint, ite_self]; rfl
    case isFalse => cases hc

/-- Settles O48: a rejected frame, then the three answers of a decoded command. -/
theorem statusFollowsPriority : Obligations.StatusFollowsPriority := by
  unfold Obligations.StatusFollowsPriority
  intro s f rest hhost hbusy
  refine ⟨fun r hr => ⟨_, (step_command hhost hbusy).trans (runFrame_of_reject hr _), rfl, rfl⟩,
    fun i hi hdefined => ?_⟩
  rw [step_command hhost hbusy, runFrame_of_decode hi]
  have hwf := decode_wellFormed hi
  obtain ⟨e, hc, hexec⟩ | ⟨hc, hoverlap, -⟩ | ⟨hc, -, hexec⟩ := exec_cases i ({ s with host := rest }.accept f)
  · exact ⟨_, hexec, rfl, (expectedStatus_of_check_some hwf hc).symm⟩
  · exact absurd ⟨(commandCheck_eq_none_iff hwf).mp hc, hoverlap⟩ hdefined
  · exact ⟨_, hexec, rfl, ((commandCheck_eq_none_iff hwf).mp hc).symm⟩

/-! ### An error leaves no trace (R196, R197) -/

/-- A command answers an error only where its check does, and then it changes the response alone. -/
theorem exec_next_of_error {i : Instr} {s t : State} (h : exec i s = .next t) (herror : t.rsp.status ≠ .ok) :
    ∃ e, commandCheck s.memBytes i = some e ∧ t = s.raise e (echoPos i) := by
  obtain hraise | ⟨-, rfl⟩ := exec_next_checked h
  · exact hraise
  · exact absurd rfl herror

theorem echoPos_lt {i : Instr} (hi : i.WellFormed) : echoPos i < 2 ^ 64 := by
  cases i with
  | rdbitsInc | wrbitsInc | cpbitsInc | advance =>
    simp only [Instr.WellFormed, Instr.wf, Bool.and_eq_true, posWf_iff] at hi
    rw [echoPos]; omega
  | _ => exact Nat.two_pow_pos 64

/-- Settles O54: the check looks at the memory size alone, and an error keeps it. -/
theorem repeatedErrorIsTheSame : Obligations.RepeatedErrorIsTheSame := by
  unfold Obligations.RepeatedErrorIsTheSame
  intro i s t hexec herror
  obtain ⟨e, hc, rfl⟩ := exec_next_of_error hexec herror
  exact exec_of_check_some (s := s.raise e (echoPos i)) hc

/-- Settles O49: the frame is rejected, or the check of its command fails; neither looks at memory. -/
theorem errorsLeaveNoTrace : Obligations.ErrorsLeaveNoTrace := by
  unfold Obligations.ErrorsLeaveNoTrace
  intro s t f rest hhost hbusy hstep herror
  rw [step_command hhost hbusy] at hstep
  have hother (m : Memory) :
      step { s with mem := m } = runFrame f ({ s with mem := m, host := rest }.accept f) :=
    step_command (s := { s with mem := m }) hhost hbusy
  cases hd : decode f with
  | error r =>
    rw [runFrame_of_reject hd] at hstep
    cases hstep
    exact ⟨rfl, fun m => (hother m).trans (runFrame_of_reject hd _), fun _ => nofun, fun _ _ => rfl⟩
  | ok i =>
    rw [runFrame_of_decode hd] at hstep
    obtain ⟨e, hc, rfl⟩ := exec_next_of_error hstep herror
    refine ⟨rfl, fun m => ?_, ?_, fun _ => nofun⟩
    · rw [hother, runFrame_of_decode hd]
      exact exec_of_check_some (s := { s with mem := m, host := rest }.accept f) hc
    · rintro _ ⟨⟩
      exact Nat.mod_eq_of_lt (echoPos_lt (decode_wellFormed hd))

end Sys2Proof.Machine

/-! PROOF. The obligations of `70_reset_and_hazards.md`: O10, O12 and O13, with the lemmas they rest on. -/

namespace Sys2Proof.Machine

/-! ### What a reset does (R29, R221, R222) -/

/-- Everything a reset changes: busy, rsp_valid, memory and the number of bytes drawn (R29, R222). -/
theorem applyReset_eq (s : State) :
    s.applyReset = { s with busy := false, rspValid := false, mem := s.applyReset.mem,
                            draws := s.draws + s.abandonedSpan.size } := by
  simp [State.applyReset]

/-- What a reset does to memory: the bytes of the abandoned span are drawn, every other byte stays (R222). -/
theorem read_applyReset {s : State} (h : s.mem.wf = true) (x : Nat) :
    s.applyReset.mem.read x =
      if s.abandonedSpan.Mem x then Config.freeByte (s.draws + (x - s.abandonedSpan.start)) else s.mem.read x :=
  read_drawBytes h ..

/-- Only a command that was decoded and answered `OK` leaves bytes to draw, those it writes (R196, R222). -/
theorem exists_writeSpan_of_abandonedSpan_mem {s : State} {x : Nat} (h : s.abandonedSpan.Mem x) :
    ∃ i, decode s.latched = .ok i ∧ s.rsp.status = .ok ∧ (writeSpan i).Mem x := by
  have hempty : ¬Span.Mem ⟨0, 0⟩ x := fun hx => Nat.not_lt_zero x hx.2
  rw [State.abandonedSpan] at h
  split at h
  · next hflight =>
    split at h
    · next i hi => exact ⟨i, hi, hflight.2, h⟩
    · exact absurd h hempty
  · exact absurd h hempty

/-- A reset of an idle unit draws nothing (R221). -/
theorem applyReset_of_idle {s : State} (h : s.busy = false) :
    s.applyReset = { s with busy := false, rspValid := false } := by
  rw [State.applyReset, abandonedSpan_of_idle h, State.drawBytes]

/-- Settles O12: an idle unit has no command to abandon. -/
theorem resetOfIdleUnitKeepsMemory : Obligations.ResetOfIdleUnitKeepsMemory := by
  unfold Obligations.ResetOfIdleUnitKeepsMemory
  intro s rest hhost hbusy
  rw [step_reset hhost, applyReset_of_idle (s := { s with host := rest }) hbusy]

/-- Settles O13: a byte is drawn exactly when it lies in the abandoned span, and that is the write footprint of a command
that answered `OK`, or empty. -/
theorem resetInFlightAbandonsCommand : Obligations.ResetInFlightAbandonsCommand := by
  unfold Obligations.ResetInFlightAbandonsCommand
  intro s rest hwf hhost hbusy
  have hread := read_applyReset (s := { s with host := rest }) hwf
  refine ⟨_, step_reset hhost, applyReset_eq { s with host := rest }, fun x hx => ?_, fun i x hi hok hx => ?_⟩
  · rw [hread, if_neg fun hmem => ?_]
    obtain ⟨i, hi, hok, hin⟩ := exists_writeSpan_of_abandonedSpan_mem hmem
    exact hx i hi hok hin
  · rw [hread, abandonedSpan_of_ok (s := { s with host := rest }) hbusy hok hi, if_pos hx]

/-! ### The host's writes between commands (R40, R229) -/

/-- Settles O10: the write is taken exactly when its byte exists. -/
theorem hostWritesBetweenCommands : Obligations.HostWritesBetweenCommands := by
  unfold Obligations.HostWritesBetweenCommands
  intro s x v rest hwf hhost hbusy
  rw [step_write hhost hbusy, hostWrite]
  refine ⟨fun hx => ⟨s.mem.write x v, if_pos hx, ?_, fun y hy => ?_⟩, fun hx => if_neg (not_lt.mpr hx)⟩
  · rw [Memory.read_write hwf, if_pos rfl]
  · rw [Memory.read_write hwf, if_neg hy]

end Sys2Proof.Machine
